-- ==== Sys2Proof/Word.lean ====
section
/-! DEFINITION. The widths of the machine's values (spec/10_state.md, spec/30_encoding.md R61). -/

namespace Sys2Proof

/-- A general register, a timer or a memory cell: 8 bits. -/
abbrev Byte := BitVec 8

/-- An instruction word, `pc`, `I`, `KEYS` or a stack entry: 16 bits. -/
abbrev Word := BitVec 16

/-- A 4-bit field of an instruction word: class, sub-class or sprite height. -/
abbrev Nibble := BitVec 4

/-- A register index `X` or `Y` (R62: every value 0 to 15 is legal). -/
abbrev Reg := BitVec 4

/-- The 12-bit field `NNN`. -/
abbrev Addr12 := BitVec 12

end Sys2Proof
end

