-- ==== Sys2Proof/Syntax.lean ====
section
/-! DEFINITION. The instructions: one constructor per row of spec/opcode_table.json, in the table's order
(spec/30_encoding.md R66). -/

namespace Sys2Proof

inductive Instr where
  /-- `0000` HALT (R105). -/
  | halt
  /-- `0nnn` SYS nnn (R106), for `nnn` none of 000, 0E0, 0EE. -/
  | sys (nnn : Addr12)
  /-- `00E0` CLS (R180). -/
  | cls
  /-- `00EE` RET (R142). -/
  | ret
  /-- `1nnn` JP nnn (R140). -/
  | jp (nnn : Addr12)
  /-- `2nnn` CALL nnn (R141). -/
  | call (nnn : Addr12)
  /-- `3xnn` SE Vx, nn (R143). -/
  | seImm (x : Reg) (nn : Byte)
  /-- `4xnn` SNE Vx, nn (R144). -/
  | sneImm (x : Reg) (nn : Byte)
  /-- `5xy0` SE Vx, Vy (R145). -/
  | seReg (x y : Reg)
  /-- `6xnn` LD Vx, nn (R120). -/
  | ldImm (x : Reg) (nn : Byte)
  /-- `7xnn` ADD Vx, nn (R121). -/
  | addImm (x : Reg) (nn : Byte)
  /-- `8xy0` LD Vx, Vy (R122). -/
  | ldReg (x y : Reg)
  /-- `8xy1` OR Vx, Vy (R123). -/
  | orReg (x y : Reg)
  /-- `8xy2` AND Vx, Vy (R124). -/
  | andReg (x y : Reg)
  /-- `8xy3` XOR Vx, Vy (R125). -/
  | xorReg (x y : Reg)
  /-- `8xy4` ADD Vx, Vy (R126). -/
  | addReg (x y : Reg)
  /-- `8xy5` SUB Vx, Vy (R127). -/
  | subReg (x y : Reg)
  /-- `8xy6` SHR Vx, Vy (R128). -/
  | shr (x y : Reg)
  /-- `8xy7` SUBN Vx, Vy (R129). -/
  | subnReg (x y : Reg)
  /-- `8xyE` SHL Vx, Vy (R130). -/
  | shl (x y : Reg)
  /-- `9xy0` SNE Vx, Vy (R146). -/
  | sneReg (x y : Reg)
  /-- `Annn` LD I, nnn (R160). -/
  | ldI (nnn : Addr12)
  /-- `Bnnn` JP V0, nnn (R147). -/
  | jpV0 (nnn : Addr12)
  /-- `Cxnn` RND Vx, nn (R131). -/
  | rnd (x : Reg) (nn : Byte)
  /-- `Dxyn` DRW Vx, Vy, n (R181). -/
  | drw (x y : Reg) (n : Nibble)
  /-- `Ex9E` SKP Vx (R210). -/
  | skp (x : Reg)
  /-- `ExA1` SKNP Vx (R211). -/
  | sknp (x : Reg)
  /-- `Fx07` LD Vx, DT (R200). -/
  | ldVxDT (x : Reg)
  /-- `Fx0A` LD Vx, K (R212). -/
  | ldVxK (x : Reg)
  /-- `Fx15` LD DT, Vx (R201). -/
  | ldDTVx (x : Reg)
  /-- `Fx18` LD ST, Vx (R202). -/
  | ldSTVx (x : Reg)
  /-- `Fx1E` ADD I, Vx (R161). -/
  | addI (x : Reg)
  /-- `Fx29` LD F, Vx (R162). -/
  | ldF (x : Reg)
  /-- `Fx33` LD B, Vx (R163). -/
  | ldB (x : Reg)
  /-- `Fx55` LD [I], Vx (R164). -/
  | storeRegs (x : Reg)
  /-- `Fx65` LD Vx, [I] (R165). -/
  | loadRegs (x : Reg)
  deriving DecidableEq, Repr

end Sys2Proof
end

