-- ==== Sys2Proof/Config.lean ====
section
/-! DEFINITION. What an implementation fixes (spec/00_scope.md R8, R9) and the free values the host supplies (R10).
The values of the parameters for this hardware are in `Sys2Proof/Machine/Params.lean`. -/

namespace Sys2Proof.Config

/-- `SHIFT_SOURCE` (R9, D6): the register SHR and SHL read. -/
inductive ShiftSource where
  | x
  | y
  deriving DecidableEq, Repr

/-- `ODD_PC_POLICY` (R9, D12): what a fetch at an odd program counter does. -/
inductive OddPcPolicy where
  | fault
  | fetch
  deriving DecidableEq, Repr

/-- The named parameters of R9, all of them. -/
structure Params where
  stackCapacity : Nat
  fontBase : Nat
  glyphs : List Byte
  shiftSource : ShiftSource
  seVxVyBaselineBug : Bool
  oddPcPolicy : OddPcPolicy
  ldstIncrementsI : Bool
  protectReserved : Bool
  deriving DecidableEq, Repr

/-- R8: "memory of 4096 bytes at addresses 0x000 to 0xFFF". -/
abbrev memorySize : Nat := 0x1000

/-- R8: the program load address, which is also the first address above the reserved region (R41). -/
abbrev loadAddress : Nat := 0x200

/-- R8: the maximum program length, 4096 - 0x200 = 3584 bytes. -/
abbrev maxProgramLength : Nat := memorySize - loadAddress

/-- The key mask the input source supplies to the `n`-th step (R10, D27). A free value: it has no body, and nothing is
known of it. -/
opaque keysNext : Nat → Word

/-- The random byte supplied to the `n`-th step (R10, D18: "a free draw under no law"). A free value. -/
opaque rnd : Nat → Byte

end Sys2Proof.Config
end

