-- ==== Sys2Proof/Machine/Params.lean ====
section
/-! DEFINITION. The values this hardware gives the parameters of spec/00_scope.md R9, and the reset contents of memory
(spec/20_memory.md R45, R46). -/

namespace Sys2Proof.Machine

open Sys2Proof

/-- `GLYPHS` (R46, D3): 16 sprites of 5 bytes, top row first. -/
def glyphTable : List Byte :=
  [0xF0, 0x90, 0x90, 0x90, 0xF0,
   0x20, 0x60, 0x20, 0x20, 0x70,
   0xF0, 0x10, 0xF0, 0x80, 0xF0,
   0xF0, 0x10, 0xF0, 0x10, 0xF0,
   0x90, 0x90, 0xF0, 0x10, 0x10,
   0xF0, 0x80, 0xF0, 0x10, 0xF0,
   0xF0, 0x80, 0xF0, 0x90, 0xF0,
   0xF0, 0x10, 0x20, 0x40, 0x40]
  ++
  [0xF0, 0x90, 0xF0, 0x90, 0xF0,
   0xF0, 0x90, 0xF0, 0x10, 0xF0,
   0xF0, 0x90, 0xF0, 0x90, 0x90,
   0xE0, 0x90, 0xE0, 0x90, 0xE0,
   0xF0, 0x80, 0x80, 0x80, 0xF0,
   0xE0, 0x90, 0x90, 0x90, 0xE0,
   0xF0, 0x80, 0xF0, 0x80, 0xF0,
   0xF0, 0x80, 0xF0, 0x80, 0x80]

/-- The values of R9 for this hardware (D1, D2, D3, D6, D9, D12, D16, D25). -/
def hardware : Config.Params where
  stackCapacity := 16
  fontBase := 0x000
  glyphs := glyphTable
  shiftSource := .x
  seVxVyBaselineBug := false
  oddPcPolicy := .fault
  ldstIncrementsI := false
  protectReserved := false

/-- R45: what address `a` holds after reset, the glyph bytes at `FONT_BASE` and 0 elsewhere. It is what an address that
memory does not list reads as. -/
def resetByte (p : Config.Params) (a : Nat) : Byte :=
  if p.fontBase ≤ a then p.glyphs.getD (a - p.fontBase) 0 else 0

end Sys2Proof.Machine
end

