-- ==== Sys2Proof/Machine/State.lean ====
section
/-! DEFINITION. The machine's state as plain data (spec/10_state.md R20 to R33) and its value after reset
(spec/70_reset_and_hazards.md R400). -/

namespace Sys2Proof.Machine

open Sys2Proof

/-- The error kinds of spec/60_exceptions.md R300. -/
inductive ErrorKind where
  | invalidInstruction
  | outOfBounds
  | stackOverflow
  | stackUnderflow
  | loadTooLarge
  | misalignedFetch
  deriving DecidableEq, Repr

/-- The run status (R32). -/
inductive Status where
  | running
  | halted
  | error (kind : ErrorKind) (epc : Word)
  deriving DecidableEq, Repr

/-- The wait state (R31). -/
inductive Wait where
  | none
  | waiting (x : Reg) (seen : Word)
  deriving DecidableEq, Repr

/-- The two arguments of one call of the step (spec/00_scope.md R10). -/
structure StepArgs where
  keysNext : Word
  rnd : Byte
  deriving DecidableEq, Repr

/-- FB (R27): 32 rows of 8 bytes. -/
abbrev Framebuffer := Vector (Vector Byte 8) 32

/-- Memory in its one canonical form: addresses strictly rising, no cell equal to what an unlisted address reads as. -/
abbrev Memory := List Host.Cell

structure State where
  /-- `V[0]` to `V[15]` (R20). -/
  v : Vector Byte 16
  /-- The address register `I` (R22). -/
  i : Word
  /-- The program counter (R23). -/
  pc : Word
  /-- The delay timer (R25). -/
  dt : Byte
  /-- The sound timer (R25). -/
  st : Byte
  /-- The return addresses `S[0]`, `S[1]`, … (R26): as many as `STACK_CAPACITY` says, which is a parameter (log 14). -/
  stack : List Word
  /-- `SP`, the number of occupied entries (R26). -/
  sp : Nat
  /-- The framebuffer (R27). -/
  fb : Framebuffer
  /-- The input latch `KEYS` (R28). -/
  keys : Word
  /-- Memory (R29). -/
  mem : Memory
  /-- The jump flag (R30). -/
  jumped : Bool
  /-- The wait state (R31). -/
  wait : Wait
  /-- The run status (R32). -/
  status : Status
  /-- The tone bit the last step returned (R33): an output, recorded here (log 4). -/
  tone : Bool
  /-- The arguments of the present step (R10): the model's own field (log 2). -/
  args : StepArgs
  /-- Arguments the host has already chosen for coming steps: the model's own field (log 1). -/
  inputs : List StepArgs
  /-- Running steps begun, the index of the free values: the model's own field (log 3). -/
  steps : Nat
  deriving DecidableEq, Repr

/-- What stops the model. The machine's own errors are states (R32, R303), not faults. -/
inductive Fault where
  /-- Raised by the load operation alone, never by a step (R300 code 5, R401): the image is longer than 3584 bytes. Memory
  is unchanged and the machine is not stopped. Safe: nothing is claimed of the machine after it. -/
  | loadTooLarge
  deriving DecidableEq, Repr

inductive Refusal where
  /-- Raised by `exec` for an instruction that has no meaning yet. Safe. -/
  | notModelled (mnemonic : String)
  /-- Raised by the load operation alone, never by a step: a load after the machine has begun to step, which the spec lets a
  model refuse (R401, D30, K15). Safe. -/
  | loadAfterStart
  deriving DecidableEq, Repr

/-- R400, every element, of the machine with the parameters `p`; memory lists nothing, so that it reads as R45 says. The last
four fields are the model's own (logs 1 to 4). -/
def State.resetWith (p : Config.Params) : State where
  v := Vector.replicate 16 0
  i := 0x0000
  pc := 0x0200
  dt := 0
  st := 0
  stack := List.replicate p.stackCapacity 0
  sp := 0
  fb := Vector.replicate 32 (Vector.replicate 8 0)
  keys := 0x0000
  mem := []
  jumped := false
  wait := .none
  status := .running
  tone := false
  args := { keysNext := 0, rnd := 0 }
  inputs := []
  steps := 0

/-- R400: this hardware right after reset. -/
def State.reset : State := State.resetWith hardware

end Sys2Proof.Machine
end

