-- ==== Sys2Proof/Machine/Ops.lean ====
section
/-! DEFINITION. The named operations on memory, registers, the program counter, the call stack and the run status, the
stops of spec/60_exceptions.md among them. What depends on a parameter of spec/00_scope.md R9 takes the parameters `p`. -/

namespace Sys2Proof.Machine

open Sys2Proof

/-! ### Memory (spec/20_memory.md) -/

/-- The byte a memory lists for an address, if it lists one. -/
def Memory.lookup : Memory → Nat → Option Byte
  | [], _ => none
  | (b, u) :: m, a => if a = b then some u else Memory.lookup m a

/-- `Mem[a]`: the last byte written, or the reset byte (R45, R50). -/
def Memory.read (p : Config.Params) (m : Memory) (a : Nat) : Byte :=
  (Memory.lookup m a).getD (resetByte p a)

/-- A cell put in its place among cells at rising addresses. -/
def Memory.insert : Memory → Nat → Byte → Memory
  | [], a, v => [(a, v)]
  | (b, u) :: m, a, v => if a < b then (a, v) :: (b, u) :: m else (b, u) :: Memory.insert m a v

/-- `Mem[a] <- v`, keeping the canonical form: no cell for a byte that an unlisted address reads as. -/
def Memory.write (p : Config.Params) (m : Memory) (a : Nat) (v : Byte) : Memory :=
  if v = resetByte p a then m.filter (fun c => c.1 != a)
  else Memory.insert (m.filter (fun c => c.1 != a)) a v

/-- The canonical form: every cell inside the address space, addresses strictly rising, no cell equal to what an unlisted
address reads as. -/
def Memory.wf (p : Config.Params) : Memory → Bool
  | [] => true
  | (a, v) :: m =>
    decide (a < Config.memorySize) && v != resetByte p a && m.all (fun c => decide (a < c.1)) && Memory.wf p m

/-- `Mem[a]` of a state. -/
def State.byte (p : Config.Params) (s : State) (a : Nat) : Byte := Memory.read p s.mem a

/-- `Mem[a] <- v` on a state, for an address that exists (R40); nothing is written elsewhere. -/
def State.setByte (p : Config.Params) (s : State) (a : Nat) (v : Byte) : State :=
  { s with mem := if a < Config.memorySize then Memory.write p s.mem a v else s.mem }

/-- `MemRead(a, 1)` (R42). -/
def State.memRead (p : Config.Params) (s : State) (a : Nat) : Except ErrorKind Byte :=
  if a > 0xFFF then .error .outOfBounds else .ok (s.byte p a)

/-- `MemWrite(a, 1, v)` (R43). -/
def State.memWrite (p : Config.Params) (s : State) (a : Nat) (v : Byte) : Except ErrorKind State :=
  if a > 0xFFF then .error .outOfBounds
  else if p.protectReserved = true ∧ a < Config.loadAddress then .error .outOfBounds
  else .ok (s.setByte p a v)

/-- `n` reads in order from address `a` (R44). -/
def State.loadBytes (p : Config.Params) (s : State) (a : Nat) : Nat → Except ErrorKind (List Byte)
  | 0 => .ok []
  | n + 1 =>
    match s.memRead p a with
    | .error k => .error k
    | .ok v =>
      match s.loadBytes p (a + 1) n with
      | .error k => .error k
      | .ok vs => .ok (v :: vs)

/-- Writes in order from address `a` (R44). An error gives no state at all, so a block that meets one writes nothing
(spec/40_step_and_dispatch.md R102). -/
def State.storeBytes (p : Config.Params) (s : State) (a : Nat) : List Byte → Except ErrorKind State
  | [] => .ok s
  | v :: vs =>
    match s.memWrite p a v with
    | .error k => .error k
    | .ok t => t.storeBytes p (a + 1) vs

/-- Bytes put at `a` and above with no check: the load operation, and the placing of a word. -/
def State.placeBytes (p : Config.Params) (s : State) (a : Nat) : List Byte → State
  | [] => s
  | v :: vs => (s.setByte p a v).placeBytes p (a + 1) vs

/-- R44: whether the last of `count` bytes from `base` lies beyond 0xFFF, checked once before the first access. -/
def rangeBeyond (base count : Nat) : Bool :=
  decide (0 < count ∧ base + (count - 1) > 0xFFF)

/-! ### General registers (spec/10_state.md R20, R21) -/

/-- `V[r]`. -/
def State.reg (s : State) (r : Reg) : Byte := s.v[r.toNat]'r.isLt

/-- `V[r] <- b`. -/
def State.setReg (s : State) (r : Reg) (b : Byte) : State := { s with v := s.v.set r.toNat b r.isLt }

/-- The flag register VF (R21). -/
def vf : Reg := 15

/-- `V[r]`, `V[r + 1]`, … `<- vs`, in order. -/
def State.setRegsFrom (s : State) (r : Nat) : List Byte → State
  | [] => s
  | b :: bs => (s.setReg (BitVec.ofNat 4 r) b).setRegsFrom (r + 1) bs

/-- `V[0]`, …, `V[x]`, in order. -/
def State.regsUpTo (s : State) (x : Reg) : List Byte :=
  (List.range (x.toNat + 1)).map (fun k => s.reg (BitVec.ofNat 4 k))

/-! ### The program counter (spec/40_step_and_dispatch.md R103) -/

/-- `jump(target)`: the target is neither masked nor checked. -/
def State.jump (s : State) (target : Word) : State := { s with pc := target, jumped := true }

/-- `if c: jump(pc + 4)` (spec/42_control_flow.md §2). -/
def State.skipIf (s : State) (c : Bool) : State := if c then s.jump (s.pc + 4) else s

/-! ### Stopping: taking an error, and the normal stop (spec/60_exceptions.md R302 to R305) -/

/-- `raise Error(kind)` (R303): the status records the kind and the present `pc`, and nothing else is written. There is no
vector, no saved register and no return (R304, R305). -/
def State.raise (s : State) (k : ErrorKind) : State := { s with status := .error k s.pc }

/-- `halt` (R302). -/
def State.halt (s : State) : State := { s with status := .halted }

/-- The codes of R300. -/
def ErrorKind.code : ErrorKind → Nat
  | .invalidInstruction => 1
  | .outOfBounds => 2
  | .stackOverflow => 3
  | .stackUnderflow => 4
  | .loadTooLarge => 5
  | .misalignedFetch => 6

/-! ### The call stack (spec/10_state.md R26, spec/42_control_flow.md R141, R142) -/

/-- `S[k]`. -/
def State.entry (s : State) (k : Nat) : Word := s.stack.getD k 0

/-- Pushes an address, unless the stack is full: `SP == STACK_CAPACITY`. -/
def State.push (p : Config.Params) (s : State) (w : Word) : Option State :=
  if s.sp = p.stackCapacity then none
  else some { s with stack := s.stack.set s.sp w, sp := s.sp + 1 }

/-- Pops an address, unless the stack is empty. The entry keeps its value. -/
def State.pop (s : State) : Option (Word × State) :=
  if s.sp = 0 then none
  else some (s.entry (s.sp - 1), { s with sp := s.sp - 1 })

/-! ### The framebuffer (spec/10_state.md R27) -/

/-- Pixel (column `c`, row `r`): bit `7 - (c mod 8)` of `FB[r][c / 8]`. -/
def Framebuffer.pixel (f : Framebuffer) (c : Fin 64) (r : Fin 32) : Bool :=
  ((f[r.val])[c.val / 8]'(by omega)).getLsbD (7 - c.val % 8)

/-- A pixel of a state's framebuffer. -/
def State.pixel (s : State) (c : Fin 64) (r : Fin 32) : Bool := Framebuffer.pixel s.fb c r

/-- `FB[r][j]`. -/
def State.fbByte (s : State) (r : Fin 32) (j : Fin 8) : Byte := (s.fb[r.val])[j.val]

/-! ### What a step returns (spec/10_state.md R33, spec/40_step_and_dispatch.md R100) -/

/-- The status a step returns: a machine that waits returns `Continue` like one that runs (D33). -/
inductive Returned where
  | continue
  | halted
  | error (kind : ErrorKind) (epc : Word)
  deriving DecidableEq, Repr

/-- The status and the tone bit that the step which led to this state returned. -/
def State.output (s : State) : Returned × Bool :=
  match s.status with
  | .running => (.continue, s.tone)
  | .halted => (.halted, s.tone)
  | .error k e => (.error k e, s.tone)

end Sys2Proof.Machine
end

