-- ==== Sys2Proof/Machine/Flags.lean ====
section
/-! DEFINITION. The flag outcomes (spec/41_alu.md R119, R126 to R130): exact arithmetic, then the value stored. -/

namespace Sys2Proof.Machine

open Sys2Proof

/-- `b ? 1 : 0`: a flag outcome is always exactly 0 or 1. -/
def flagByte (b : Bool) : Byte := if b then 1 else 0

/-- `(a + b) mod 256`. -/
def sumByte (a b : Byte) : Byte := BitVec.ofNat 8 (a.toNat + b.toNat)

/-- R126: "iff the unmodulated sum exceeds 255". -/
def carry (a b : Byte) : Bool := decide (a.toNat + b.toNat > 255)

/-- `(a - b) mod 256`. -/
def diffByte (a b : Byte) : Byte := BitVec.ofInt 8 ((a.toNat : Int) - (b.toNat : Int))

/-- R127: "the subtrahend's value exceeds the minuend's value". -/
def borrow (minuend subtrahend : Byte) : Bool := decide (subtrahend.toNat > minuend.toNat)

/-- `src >> 1` (R128). -/
def shiftedRight (b : Byte) : Byte := BitVec.ofNat 8 (b.toNat >>> 1)

/-- `src & 1`, the bit SHR shifts out. -/
def bitOutRight (b : Byte) : Bool := b.getLsbD 0

/-- `(src << 1) mod 256` (R130). -/
def shiftedLeft (b : Byte) : Byte := BitVec.ofNat 8 (b.toNat <<< 1)

/-- `src >> 7`, the bit SHL shifts out. -/
def bitOutLeft (b : Byte) : Bool := b.getLsbD 7

/-- R119: the result to `V[X]` first, the flag outcome to VF second, so that VF ends as the flag when X is 15. -/
def State.setRegFlag (s : State) (x : Reg) (result : Byte) (flag : Bool) : State :=
  (s.setReg x result).setReg vf (flagByte flag)

end Sys2Proof.Machine
end

