-- ==== Sys2Proof/Machine/Operands.lean ====
section
/-! DEFINITION. The operand forms of the instructions (spec/30_encoding.md R62; spec/20_memory.md R44). A register operand is
`State.reg`, an immediate `NN` is itself, and no immediate is sign-extended. -/

namespace Sys2Proof.Machine

open Sys2Proof

/-- `zext_16(NNN)` (R62). -/
def addr16 (nnn : Addr12) : Word := nnn.setWidth 16

/-- `zext_16` of a register's byte, for JP V0 and ADD I. -/
def byte16 (b : Byte) : Word := b.setWidth 16

/-- `base = I & 0x0FFF` (R44): the address of the first byte an instruction accesses through `I`. -/
def State.base (s : State) : Nat := (s.i &&& 0x0FFF#16).toNat

/-- The operand of SHR and SHL: `V[X]` or `V[Y]` as `SHIFT_SOURCE` says (spec/41_alu.md R128). -/
def State.shiftOperand (p : Config.Params) (s : State) (x y : Reg) : Byte :=
  match p.shiftSource with
  | .x => s.reg x
  | .y => s.reg y

/-- The low 4 bits of a register: the key index of SKP and SKNP (spec/46_input.md R210), the glyph index of LD F
(spec/43_address_memory.md R162). -/
def lowNibble (b : Byte) : Nibble := b.extractLsb' 0 4

/-- `(KEYS >> k) & 1 == 1` (R210). -/
def State.keyHeld (s : State) (k : Nibble) : Bool := s.keys.getLsbD k.toNat

/-- `FONT_BASE + 5 * glyph` (R162). -/
def glyphAddress (p : Config.Params) (glyph : Nibble) : Word := BitVec.ofNat 16 (p.fontBase + 5 * glyph.toNat)

/-- `I` after a block transfer of `V[0]` to `V[X]` (spec/43_address_memory.md R164, R165, D16). -/
def State.blockAdvance (p : Config.Params) (s : State) (x : Reg) : State :=
  if p.ldstIncrementsI = true then { s with i := BitVec.ofNat 16 (s.i.toNat + x.toNat + 1) } else s

/-- The hundreds, tens and ones digits of a byte (R163). -/
def decimalDigits (v : Byte) : List Byte :=
  [BitVec.ofNat 8 (v.toNat / 100), BitVec.ofNat 8 (v.toNat / 10 % 10), BitVec.ofNat 8 (v.toNat % 10)]

end Sys2Proof.Machine
end

