-- ==== Sys2Proof/Machine/Alu.lean ====
section
/-! DEFINITION. The register file and ALU: 6xnn, 7xnn, 8xy0 to 8xy7, 8xyE, Cxnn (spec/41_alu.md R119 to R131). -/

namespace Sys2Proof.Machine

open Sys2Proof

/-- What an instruction answers: every meaning of this machine gives a next state, since its stops are states (R302, R303). -/
abbrev Answer := Host.Outcome State Fault Refusal

/-- R120. -/
def execLdImm (x : Reg) (nn : Byte) (s : State) : Answer := .next (s.setReg x nn)

/-- R121: no flag. -/
def execAddImm (x : Reg) (nn : Byte) (s : State) : Answer := .next (s.setReg x (sumByte (s.reg x) nn))

/-- R122. -/
def execLdReg (x y : Reg) (s : State) : Answer := .next (s.setReg x (s.reg y))

/-- R123. -/
def execOrReg (x y : Reg) (s : State) : Answer := .next (s.setReg x (s.reg x ||| s.reg y))

/-- R124. -/
def execAndReg (x y : Reg) (s : State) : Answer := .next (s.setReg x (s.reg x &&& s.reg y))

/-- R125. -/
def execXorReg (x y : Reg) (s : State) : Answer := .next (s.setReg x (s.reg x ^^^ s.reg y))

/-- R126. -/
def execAddReg (x y : Reg) (s : State) : Answer :=
  .next (s.setRegFlag x (sumByte (s.reg x) (s.reg y)) (carry (s.reg x) (s.reg y)))

/-- R127: minuend `V[X]`, subtrahend `V[Y]`. -/
def execSubReg (x y : Reg) (s : State) : Answer :=
  .next (s.setRegFlag x (diffByte (s.reg x) (s.reg y)) (borrow (s.reg x) (s.reg y)))

/-- R128. -/
def execShrWith (p : Config.Params) (x y : Reg) (s : State) : Answer :=
  .next (s.setRegFlag x (shiftedRight (s.shiftOperand p x y)) (bitOutRight (s.shiftOperand p x y)))

/-- R128 on this hardware. -/
def execShr (x y : Reg) (s : State) : Answer := execShrWith hardware x y s

/-- R129: minuend `V[Y]`, subtrahend `V[X]`. -/
def execSubnReg (x y : Reg) (s : State) : Answer :=
  .next (s.setRegFlag x (diffByte (s.reg y) (s.reg x)) (borrow (s.reg y) (s.reg x)))

/-- R130. -/
def execShlWith (p : Config.Params) (x y : Reg) (s : State) : Answer :=
  .next (s.setRegFlag x (shiftedLeft (s.shiftOperand p x y)) (bitOutLeft (s.shiftOperand p x y)))

/-- R130 on this hardware. -/
def execShl (x y : Reg) (s : State) : Answer := execShlWith hardware x y s

/-- R131: the random byte is the argument of the present step. -/
def execRnd (x : Reg) (nn : Byte) (s : State) : Answer := .next (s.setReg x (s.args.rnd &&& nn))

end Sys2Proof.Machine
end

