-- ==== Sys2Proof/Machine/Control.lean ====
section
/-! DEFINITION. HALT and SYS (spec/40_step_and_dispatch.md R105, R106), jumps, calls, returns and skips
(spec/42_control_flow.md R140 to R147). The advance of `pc` is the step's (R104), not the instruction's. -/

namespace Sys2Proof.Machine

open Sys2Proof

/-- R105: the normal stop; `pc` stays on the word. -/
def execHalt (s : State) : Answer := .next s.halt

/-- R106: the legacy no-op; the operand is ignored. -/
def execSys (_nnn : Addr12) (s : State) : Answer := .next s

/-- R140. -/
def execJp (nnn : Addr12) (s : State) : Answer := .next (s.jump (addr16 nnn))

/-- R141: pushes the address of the CALL itself (C3, D10); StackOverflow, with nothing written, when the stack is full. -/
def execCallWith (p : Config.Params) (nnn : Addr12) (s : State) : Answer :=
  match s.push p s.pc with
  | some t => .next (t.jump (addr16 nnn))
  | none => .next (s.raise .stackOverflow)

/-- R141 on this hardware: the stack holds 16 entries (D1). -/
def execCall (nnn : Addr12) (s : State) : Answer := execCallWith hardware nnn s

/-- R142: to the instruction after the CALL; StackUnderflow, with nothing written, when the stack is empty. -/
def execRet (s : State) : Answer :=
  match s.pop with
  | some (a, t) => .next (t.jump (a + 2))
  | none => .next (s.raise .stackUnderflow)

/-- R143. -/
def execSeImm (x : Reg) (nn : Byte) (s : State) : Answer := .next (s.skipIf (s.reg x == nn))

/-- R144. -/
def execSneImm (x : Reg) (nn : Byte) (s : State) : Answer := .next (s.skipIf (s.reg x != nn))

/-- The condition of 5xy0: equality, or the baseline's inequality where the parameter asks for it (R145, D9, C9). -/
def seRegCondition (p : Config.Params) (a b : Byte) : Bool :=
  if p.seVxVyBaselineBug = false then a == b else a != b

/-- R145. -/
def execSeRegWith (p : Config.Params) (x y : Reg) (s : State) : Answer := .next (s.skipIf (seRegCondition p (s.reg x) (s.reg y)))

/-- R145 on this hardware. -/
def execSeReg (x y : Reg) (s : State) : Answer := execSeRegWith hardware x y s

/-- R146. -/
def execSneReg (x y : Reg) (s : State) : Answer := .next (s.skipIf (s.reg x != s.reg y))

/-- R147: not masked, no wrap (D11). -/
def execJpV0 (nnn : Addr12) (s : State) : Answer := .next (s.jump (addr16 nnn + byte16 (s.reg 0)))

end Sys2Proof.Machine
end

