-- ==== Sys2Proof/Machine/Address.lean ====
section
/-! DEFINITION. The address register and the memory transfers: Annn, Fx1E, Fx29, Fx33, Fx55, Fx65
(spec/43_address_memory.md R160 to R165; the range check is spec/20_memory.md R44). -/

namespace Sys2Proof.Machine

open Sys2Proof

/-- R160: the upper 4 bits of `I` become 0. -/
def execLdI (nnn : Addr12) (s : State) : Answer := .next { s with i := addr16 nnn }

/-- R161: modulo 65536, no flag. -/
def execAddI (x : Reg) (s : State) : Answer := .next { s with i := s.i + byte16 (s.reg x) }

/-- R162. -/
def execLdFWith (p : Config.Params) (x : Reg) (s : State) : Answer := .next { s with i := glyphAddress p (lowNibble (s.reg x)) }

/-- R162 on this hardware. -/
def execLdF (x : Reg) (s : State) : Answer := execLdFWith hardware x s

/-- The bytes `vs` stored at `I` and above, whole or not at all: the check on the range first, then the writes (R44, R102). -/
def State.storeAtI (p : Config.Params) (s : State) (vs : List Byte) : Except ErrorKind State :=
  if rangeBeyond s.base vs.length then .error .outOfBounds else s.storeBytes p s.base vs

/-- `n` bytes read at `I` and above, after the check on the range (R44). -/
def State.loadAtI (p : Config.Params) (s : State) (n : Nat) : Except ErrorKind (List Byte) :=
  if rangeBeyond s.base n then .error .outOfBounds else s.loadBytes p s.base n

/-- R163. -/
def execLdBWith (p : Config.Params) (x : Reg) (s : State) : Answer :=
  match s.storeAtI p (decimalDigits (s.reg x)) with
  | .ok t => .next t
  | .error k => .next (s.raise k)

/-- R163 on this hardware. -/
def execLdB (x : Reg) (s : State) : Answer := execLdBWith hardware x s

/-- R164. -/
def execStoreRegsWith (p : Config.Params) (x : Reg) (s : State) : Answer :=
  match s.storeAtI p (s.regsUpTo x) with
  | .ok t => .next (t.blockAdvance p x)
  | .error k => .next (s.raise k)

/-- R164 on this hardware. -/
def execStoreRegs (x : Reg) (s : State) : Answer := execStoreRegsWith hardware x s

/-- R165. -/
def execLoadRegsWith (p : Config.Params) (x : Reg) (s : State) : Answer :=
  match s.loadAtI p (x.toNat + 1) with
  | .ok vs => .next ((s.setRegsFrom 0 vs).blockAdvance p x)
  | .error k => .next (s.raise k)

/-- R165 on this hardware. -/
def execLoadRegs (x : Reg) (s : State) : Answer := execLoadRegsWith hardware x s

end Sys2Proof.Machine
end

