-- ==== Sys2Proof/Machine/Display.lean ====
section
/-! DEFINITION. The display engine: 00E0 and Dxyn (spec/44_display.md R180, R181). -/

namespace Sys2Proof.Machine

open Sys2Proof

/-- A framebuffer being drawn on, and whether a lit pixel has been turned off so far. -/
abbrev Drawing := Framebuffer × Bool

/-- One byte of the blit: `if FB[row][j] & m != 0: collision <- 1; FB[row][j] <- FB[row][j] ^ m`. -/
def blitByte (row : Fin 32) (j : Fin 8) (m : Byte) (d : Drawing) : Drawing :=
  let old := (d.1[row.val])[j.val]
  (d.1.set row.val ((d.1[row.val]).set j.val (old ^^^ m)), d.2 || old &&& m != 0)

/-- The left part of a sprite row, for the byte that holds the origin column. -/
def blitHi (sprite : Byte) (off : Nat) : Byte := sprite >>> off

/-- The right part, for the byte after it (0 when `off` is 0). -/
def blitLo (sprite : Byte) (off : Nat) : Byte := BitVec.ofNat 8 (sprite.toNat <<< (8 - off))

/-- One sprite row at origin column `x0`: bytes `j = x0 / 8` and `(j + 1) mod 8` of the framebuffer row. -/
def blitRow (x0 : Nat) (row : Fin 32) (sprite : Byte) (d : Drawing) : Drawing :=
  blitByte row (Fin.ofNat 8 (x0 / 8 + 1)) (blitLo sprite (x0 % 8))
    (blitByte row (Fin.ofNat 8 (x0 / 8)) (blitHi sprite (x0 % 8)) d)

/-- The sprite rows from row `r` of the sprite on, at rows `(y0 + r) mod 32`. -/
def blitRows (x0 y0 : Nat) : Nat → List Byte → Drawing → Drawing
  | _, [], d => d
  | r, sprite :: rest, d => blitRows x0 y0 (r + 1) rest (blitRow x0 (Fin.ofNat 32 (y0 + r)) sprite d)

/-- R180. -/
def execCls (s : State) : Answer := .next { s with fb := Vector.replicate 32 (Vector.replicate 8 0) }

/-- R181: coordinates and sprite are read before any write; the range is checked before any write. -/
def execDrwWith (p : Config.Params) (x y : Reg) (n : Nibble) (s : State) : Answer :=
  match s.loadAtI p n.toNat with
  | .error k => .next (s.raise k)
  | .ok sprite =>
    let d := blitRows ((s.reg x).toNat % 64) ((s.reg y).toNat % 32) 0 sprite (s.fb, false)
    .next ({ s with fb := d.1 }.setReg vf (flagByte d.2))

/-- R181 on this hardware. -/
def execDrw (x y : Reg) (n : Nibble) (s : State) : Answer := execDrwWith hardware x y n s

end Sys2Proof.Machine
end

