-- ==== Sys2Proof/Machine/Timers.lean ====
section
/-! DEFINITION. The timers: the tick of phase 1 (spec/60_exceptions.md R320, R321) and the transfers Fx07, Fx15, Fx18
(spec/45_timers.md R200 to R202). -/

namespace Sys2Proof.Machine

open Sys2Proof

/-- One timer's count: down by one while nonzero, never below 0 (R320). -/
def countDown (t : Byte) : Byte := if t = 0 then 0 else t - 1

/-- `timer_tick()` (R320): the tone bit is `ST != 0` before the decrement (R321, C5). -/
def State.tick (s : State) : State :=
  { s with tone := s.st != 0, dt := countDown s.dt, st := countDown s.st }

/-- R200: the value after this step's decrement. -/
def execLdVxDT (x : Reg) (s : State) : Answer := .next (s.setReg x s.dt)

/-- R201. -/
def execLdDTVx (x : Reg) (s : State) : Answer := .next { s with dt := s.reg x }

/-- R202. -/
def execLdSTVx (x : Reg) (s : State) : Answer := .next { s with st := s.reg x }

end Sys2Proof.Machine
end

