-- ==== Sys2Proof/Machine/Input.lean ====
section
/-! DEFINITION. The input latch instructions Ex9E, ExA1, Fx0A and the waiting step (spec/46_input.md R210 to R213). -/

namespace Sys2Proof.Machine

open Sys2Proof

/-- R210. -/
def execSkp (x : Reg) (s : State) : Answer := .next (s.skipIf (s.keyHeld (lowNibble (s.reg x))))

/-- R211. -/
def execSknp (x : Reg) (s : State) : Answer := .next (s.skipIf (!s.keyHeld (lowNibble (s.reg x))))

/-- R212: the executing step only enters the wait. -/
def execLdVxK (x : Reg) (s : State) : Answer := .next { s with wait := .waiting x s.keys }

/-- `KEYS & (~seen & 0xFFFF)`: the keys held now that were not held in the recorded mask (R213). -/
def freshKeys (keys seen : Word) : Word := keys &&& ~~~seen

/-- The least index of a set bit, if there is one (R213). -/
def leastKey (m : Word) : Option Nat :=
  [0, 1, 2, 3, 4, 5, 6, 7, 8, 9, 10, 11, 12, 13, 14, 15].find? (fun k => m.getLsbD k)

/-- `wait_step()` (R213). -/
def State.waitStep (s : State) (x : Reg) (seen : Word) : State :=
  match leastKey (freshKeys s.keys seen) with
  | some k => { s.setReg x (BitVec.ofNat 8 k) with wait := .none }
  | none => { s with wait := .waiting x s.keys }

end Sys2Proof.Machine
end

