-- ==== Sys2Proof/Machine/Parametric.lean ====
section
/-! DEFINITION. Phase 4 of the step as a function of the parameters of spec/00_scope.md R9: "A model takes each as an argument".
`exec` is its value at `hardware`. -/

namespace Sys2Proof.Machine

open Sys2Proof

/-- `execute(op, w, rnd)` of R102 on the machine with the parameters `p`. -/
def execWith (p : Config.Params) (i : Instr) (s : State) : Answer :=
  match i with
  | .halt => execHalt s
  | .sys nnn => execSys nnn s
  | .cls => execCls s
  | .ret => execRet s
  | .jp nnn => execJp nnn s
  | .call nnn => execCallWith p nnn s
  | .seImm x nn => execSeImm x nn s
  | .sneImm x nn => execSneImm x nn s
  | .seReg x y => execSeRegWith p x y s
  | .ldImm x nn => execLdImm x nn s
  | .addImm x nn => execAddImm x nn s
  | .ldReg x y => execLdReg x y s
  | .orReg x y => execOrReg x y s
  | .andReg x y => execAndReg x y s
  | .xorReg x y => execXorReg x y s
  | .addReg x y => execAddReg x y s
  | .subReg x y => execSubReg x y s
  | .shr x y => execShrWith p x y s
  | .subnReg x y => execSubnReg x y s
  | .shl x y => execShlWith p x y s
  | .sneReg x y => execSneReg x y s
  | .ldI nnn => execLdI nnn s
  | .jpV0 nnn => execJpV0 nnn s
  | .rnd x nn => execRnd x nn s
  | .drw x y n => execDrwWith p x y n s
  | .skp x => execSkp x s
  | .sknp x => execSknp x s
  | .ldVxDT x => execLdVxDT x s
  | .ldVxK x => execLdVxK x s
  | .ldDTVx x => execLdDTVx x s
  | .ldSTVx x => execLdSTVx x s
  | .addI x => execAddI x s
  | .ldF x => execLdFWith p x s
  | .ldB x => execLdBWith p x s
  | .storeRegs x => execStoreRegsWith p x s
  | .loadRegs x => execLoadRegsWith p x s

end Sys2Proof.Machine
end

