-- ==== Sys2Proof/Machine/Engine.lean ====
section
/-! DEFINITION. The step engine: the phases of one step and their order (spec/40_step_and_dispatch.md R100 to R108). -/

namespace Sys2Proof.Machine

open Sys2Proof

/-- `s` with the arguments of its next step chosen by the host: `step (s.supply a)` is the call `step(keys_next, rnd)` of R100. -/
def State.supply (s : State) (a : StepArgs) : State := { s with inputs := a :: s.inputs }

/-- The arguments of the coming step: the ones the host has already chosen, else free values (R10; logs 1, 3). -/
def State.nextArgs (s : State) : StepArgs :=
  match s.inputs with
  | a :: _ => a
  | [] => { keysNext := Config.keysNext s.steps, rnd := Config.rnd s.steps }

/-- The call `step(keys_next, rnd)`: its arguments are taken, before phase 1. -/
def State.takeArgs (s : State) : State :=
  { s with args := s.nextArgs, inputs := s.inputs.tail, steps := s.steps + 1 }

/-- `fetch()` (R101): alignment, then bounds, then the two bytes, high byte first (R47). -/
def State.fetch (p : Config.Params) (s : State) : Except ErrorKind Word :=
  if s.pc.toNat % 2 = 1 ∧ p.oddPcPolicy = .fault then .error .misalignedFetch
  else if s.pc.toNat + 1 > 0xFFF then .error .outOfBounds
  else
    match s.memRead p s.pc.toNat, s.memRead p (s.pc.toNat + 1) with
    | .ok hi, .ok lo => .ok (wordOfBytes hi lo)
    | .error k, _ => .error k
    | _, .error k => .error k

/-- Phases 6 and 7 (R100): the jump flag is cleared and the input latch replaced (spec/10_state.md R28, R30). -/
def State.refresh (s : State) : State := { s with jumped := false, keys := s.args.keysNext }

/-- Phases 5 to 7 (R100, R104) of a step that phase 2 or 4 has not stopped. -/
def State.endStep (s : State) : State :=
  if s.status ≠ .running then s
  else if s.jumped = false ∧ s.wait = .none then
    if s.pc.toNat + 2 > 0xFFF then s.raise .outOfBounds
    else { s with pc := s.pc + 2 }.refresh
  else s.refresh

/-- Phases 3 to 7 of a step that does not wait: fetch, decode, execute by `ex` (R101, R102), and the end of the step. An invalid
word raises InvalidInstruction. -/
def State.runInstr (p : Config.Params) (ex : Instr → State → Answer) (s : State) : Answer :=
  match s.fetch p with
  | .error k => .next (s.raise k)
  | .ok w =>
    match decode w with
    | .error _ => .next (s.raise .invalidInstruction)
    | .ok i =>
      match ex i s with
      | .next t => .next t.endStep
      | .fault f => .fault f
      | .refused r => .refused r

/-- A step's phases after the timer tick (R100): the waiting step instead of an instruction while the machine waits (R213). -/
def State.runPhases (p : Config.Params) (ex : Instr → State → Answer) (s : State) : Answer :=
  match s.wait with
  | .waiting x seen => .next (s.waitStep x seen).endStep
  | .none => s.runInstr p ex

/-- One step (R100) of the machine with the parameters `p`, whose phase 4 is `ex`. Phase 0 (R107): a stopped machine
changes no state element and returns tone false. -/
def State.runStep (p : Config.Params) (ex : Instr → State → Answer) (s : State) : Answer :=
  if s.status ≠ .running then .next { s with tone := false }
  else s.takeArgs.tick.runPhases p ex

/-- One step of the machine with the parameters `p` (R9, R100). -/
def stepWith (p : Config.Params) (s : State) : Answer := s.runStep p (execWith p)

/-- The two bytes of the word `w`, high byte first (R47), put at the program counter of a machine that runs and does not wait,
so that its next step fetches them. -/
def State.placeWord (s : State) (w : Word) : State :=
  { s.placeBytes hardware s.pc.toNat [highByte w, lowByte w] with status := .running, wait := .none }

end Sys2Proof.Machine
end

