-- ==== Sys2Proof/Machine/Load.lean ====
section
/-! DEFINITION. The load operation, the only way a program enters memory (spec/70_reset_and_hazards.md R401). -/

namespace Sys2Proof.Machine

open Sys2Proof

/-- `load(bytes, len)` (R401) on the machine with the parameters `p`: verbatim at 0x200. An image above 3584 bytes fails
with LoadTooLarge, which changes nothing and does not stop the machine; a load after the first step is refused (D30, K15). -/
def State.loadWith (p : Config.Params) (bytes : List Byte) (s : State) : Answer :=
  if s.steps ≠ 0 then .refused .loadAfterStart
  else if bytes.length > Config.maxProgramLength then .fault .loadTooLarge
  else .next (s.placeBytes p Config.loadAddress bytes)

/-- R401 on this hardware. -/
def State.load (bytes : List Byte) (s : State) : Answer := s.loadWith hardware bytes

end Sys2Proof.Machine
end

