-- ==== Sys2Proof/Machine/Step.lean ====
section
/-! DEFINITION. The machine's step, and the placing of a word where the next step fetches. -/

namespace Sys2Proof.Machine

open Sys2Proof

/-- One call of the step function (spec/40_step_and_dispatch.md R100) of this hardware; its arguments are the state's (logs 1 to
3). It is `stepWith hardware` (`step_eq_stepWith`). -/
def step (s : State) : Host.Outcome State Fault Refusal := s.runStep hardware exec

/-- `s` with the instruction whose bits are `w` (numbered as spec/opcode_table.json numbers them) where `step` fetches next. -/
def State.withFetchWord (s : State) (nbits w : Nat) : State := s.placeWord (tableWord nbits w)

end Sys2Proof.Machine
end

