-- ==== Sys2Proof/Safety.lean ====
section
/-! DEFINITION. The terms in which claims about the machine are made: frames, results, invariants and safe states. -/

namespace Sys2Proof.Safety

open Sys2Proof Sys2Proof.Machine

/-! ### Frames -/

/-- The pieces of state, one for each field of `State`. -/
inductive Part where
  | regs | i | pc | dt | st | stack | sp | fb | keys | mem | jumped | wait | status | tone | args | inputs | steps
  deriving DecidableEq, Repr

/-- A piece of state is the same in `t` as in `s`. Registers and memory are compared by what they read as. -/
def Part.Kept (s t : State) : Part → Prop
  | .regs => ∀ r, t.reg r = s.reg r
  | .i => t.i = s.i
  | .pc => t.pc = s.pc
  | .dt => t.dt = s.dt
  | .st => t.st = s.st
  | .stack => t.stack = s.stack
  | .sp => t.sp = s.sp
  | .fb => t.fb = s.fb
  | .keys => t.keys = s.keys
  | .mem => ∀ a, t.byte hardware a = s.byte hardware a
  | .jumped => t.jumped = s.jumped
  | .wait => t.wait = s.wait
  | .status => t.status = s.status
  | .tone => t.tone = s.tone
  | .args => t.args = s.args
  | .inputs => t.inputs = s.inputs
  | .steps => t.steps = s.steps

/-- Every piece of state but those listed is the same in `t` as in `s`. -/
def Frame (changed : List Part) (s t : State) : Prop := ∀ p, p ∉ changed → Part.Kept s t p

/-- Every register but those listed is the same in `t` as in `s`. -/
def RegsExcept (changed : List Reg) (s t : State) : Prop := ∀ r, r ∉ changed → t.reg r = s.reg r

/-- Every byte of memory but the `n` bytes from `base` reads the same in `t` as in `s`. -/
def BytesExcept (base n : Nat) (s t : State) : Prop := ∀ a, ¬(base ≤ a ∧ a < base + n) → t.byte hardware a = s.byte hardware a

/-! ### Results of one instruction -/

/-- `i` answers a next state in which `V[x]` is `b` and nothing else has changed. -/
def SetsReg (i : Instr) (s : State) (x : Reg) (b : Byte) : Prop :=
  ∃ t, exec i s = .next t ∧ t.reg x = b ∧ RegsExcept [x] s t ∧ Frame [.regs] s t

/-- `i` answers a next state in which VF is the flag outcome, `V[x]` is `result` unless it is VF itself, and nothing else has
changed. -/
def SetsRegAndFlag (i : Instr) (s : State) (x : Reg) (result : Nat) (flag : Prop) : Prop :=
  ∃ t, exec i s = .next t ∧ (x ≠ vf → (t.reg x).toNat = result) ∧ (flag → t.reg vf = 1) ∧ (¬flag → t.reg vf = 0) ∧
    RegsExcept [x, vf] s t ∧ Frame [.regs] s t

/-- `i` answers a next state with a jump to `pc + 4` if `c` holds, and with nothing changed if it does not. -/
def SkipsIf (i : Instr) (s : State) (c : Prop) : Prop :=
  ∃ t, exec i s = .next t ∧ (c → t.pc = s.pc + 4 ∧ t.jumped = true ∧ Frame [.pc, .jumped] s t) ∧ (¬c → Frame [] s t)

/-- `i` answers a next state that records the error and has nothing else changed. -/
def Raises (i : Instr) (s : State) (k : ErrorKind) : Prop :=
  ∃ t, exec i s = .next t ∧ t.status = .error k s.pc ∧ Frame [.status] s t

/-! ### The display (spec/44_display.md R181) -/

/-- The pixel (c, r) is one of the sprite's lit pixels: row `k` of the sprite, bit `b` from the left, lands at column
`(x0 + b) mod 64`, row `(y0 + k) mod 32`, where `x0` and `y0` are the operands' values modulo 64 and 32. -/
def SpriteLit (s : State) (x y : Reg) (n : Nibble) (c : Fin 64) (r : Fin 32) : Prop :=
  ∃ k b, k < n.toNat ∧ b < 8 ∧ (s.byte hardware (s.base + k)).getLsbD (7 - b) = true ∧
    c.val = ((s.reg x).toNat % 64 + b) % 64 ∧ r.val = ((s.reg y).toNat % 32 + k) % 32

/-! ### Safe states and invariants -/

/-- The machine has not stopped on an error (R300): it runs, waits or has halted. -/
def Safe (s : State) : Prop := ∀ k e, s.status ≠ .error k e

/-- Memory is in its canonical form. -/
def MemoryCanonical (s : State) : Prop := Memory.wf hardware s.mem = true

/-- R30: the jump flag is false between steps. -/
def JumpFlagClear (s : State) : Prop := s.jumped = false

/-- R26: the stack has `STACK_CAPACITY` entries, and `0 <= SP <= STACK_CAPACITY`. -/
abbrev StackFits (p : Config.Params) (s : State) : Prop := s.stack.length = p.stackCapacity ∧ s.sp ≤ p.stackCapacity

/-- R24, R26, R141: `pc` never passes 0x10FE, the stack has its size, and every stack entry is the address of a word that was
fetched: even, and at most 0xFFE. -/
def PcAndStackInRange (s : State) : Prop :=
  s.pc.toNat ≤ 0x10FE ∧ StackFits hardware s ∧ ∀ k, (s.entry k).toNat ≤ 0xFFE ∧ (s.entry k).toNat % 2 = 0

/-- R108, R300: an error has recorded the present `pc`, and no step raises LoadTooLarge. -/
def StopRecordsPc (s : State) : Prop := ∀ k e, s.status = .error k e → e = s.pc ∧ k ≠ .loadTooLarge

/-- R212: a waiting machine's `pc` is on the Fx0A word that names the register the key goes to, and that word can be fetched. -/
def WaitsOnKeyWord (s : State) : Prop :=
  ∀ x seen, s.wait = .waiting x seen → ∃ w, s.fetch hardware = .ok w ∧ decode w = .ok (.ldVxK x)

end Sys2Proof.Safety
end

