-- ==== Sys2Proof/Certificates/Slice0/Obligations.lean ====
section
/-! DEFINITION. The statements for the provers: what the rules of spec/ say of the decoder, of each instruction (phase 4 of
a step, `exec`), of the phases around it, and of the whole machine. A clause that rests on one of the decisions D1 to D34 of
spec/92_eei_decisions.md, which the spec calls its own choice, names the decision. -/

open Sys2Proof Sys2Proof.Machine Sys2Proof.Safety

/-! ### Encoding -/

/-- R61: the fields of a word and how they overlap. -/
def Obligations.WordIsItsFields : Prop :=
  ∀ w : Word,
    w.toNat = (fieldClass w).toNat * 4096 + (fieldX w).toNat * 256 + (fieldY w).toNat * 16 + (fieldN w).toNat ∧
    (fieldNN w).toNat = (fieldY w).toNat * 16 + (fieldN w).toNat ∧
    (fieldNNN w).toNat = (fieldX w).toNat * 256 + (fieldNN w).toNat

/-- R66, R64: every row of the opcode map decodes to its instruction, at every value of its fields (opcode numbers: D4). -/
def Obligations.OpcodeMapDecodes : Prop :=
  ∀ (x y : Reg) (n : Nibble) (nn : Byte) (nnn : Addr12),
    decode 0x0000 = .ok .halt ∧ decode 0x00E0 = .ok .cls ∧ decode 0x00EE = .ok .ret ∧
    (nnn ≠ 0x000 → nnn ≠ 0x0E0 → nnn ≠ 0x0EE → decode (0x0#4 ++ nnn) = .ok (.sys nnn)) ∧
    decode (0x1#4 ++ nnn) = .ok (.jp nnn) ∧
    decode (0x2#4 ++ nnn) = .ok (.call nnn) ∧
    decode ((0x3#4 ++ x) ++ nn) = .ok (.seImm x nn) ∧
    decode ((0x4#4 ++ x) ++ nn) = .ok (.sneImm x nn) ∧
    decode ((0x5#4 ++ x) ++ (y ++ 0x0#4)) = .ok (.seReg x y) ∧
    decode ((0x6#4 ++ x) ++ nn) = .ok (.ldImm x nn) ∧
    decode ((0x7#4 ++ x) ++ nn) = .ok (.addImm x nn) ∧
    decode ((0x8#4 ++ x) ++ (y ++ 0x0#4)) = .ok (.ldReg x y) ∧
    decode ((0x8#4 ++ x) ++ (y ++ 0x1#4)) = .ok (.orReg x y) ∧
    decode ((0x8#4 ++ x) ++ (y ++ 0x2#4)) = .ok (.andReg x y) ∧
    decode ((0x8#4 ++ x) ++ (y ++ 0x3#4)) = .ok (.xorReg x y) ∧
    decode ((0x8#4 ++ x) ++ (y ++ 0x4#4)) = .ok (.addReg x y) ∧
    decode ((0x8#4 ++ x) ++ (y ++ 0x5#4)) = .ok (.subReg x y) ∧
    decode ((0x8#4 ++ x) ++ (y ++ 0x6#4)) = .ok (.shr x y) ∧
    decode ((0x8#4 ++ x) ++ (y ++ 0x7#4)) = .ok (.subnReg x y) ∧
    decode ((0x8#4 ++ x) ++ (y ++ 0xE#4)) = .ok (.shl x y) ∧
    decode ((0x9#4 ++ x) ++ (y ++ 0x0#4)) = .ok (.sneReg x y) ∧
    decode (0xA#4 ++ nnn) = .ok (.ldI nnn) ∧
    decode (0xB#4 ++ nnn) = .ok (.jpV0 nnn) ∧
    decode ((0xC#4 ++ x) ++ nn) = .ok (.rnd x nn) ∧
    decode ((0xD#4 ++ x) ++ (y ++ n)) = .ok (.drw x y n) ∧
    decode ((0xE#4 ++ x) ++ 0x9E#8) = .ok (.skp x) ∧
    decode ((0xE#4 ++ x) ++ 0xA1#8) = .ok (.sknp x) ∧
    decode ((0xF#4 ++ x) ++ 0x07#8) = .ok (.ldVxDT x) ∧
    decode ((0xF#4 ++ x) ++ 0x0A#8) = .ok (.ldVxK x) ∧
    decode ((0xF#4 ++ x) ++ 0x15#8) = .ok (.ldDTVx x) ∧
    decode ((0xF#4 ++ x) ++ 0x18#8) = .ok (.ldSTVx x) ∧
    decode ((0xF#4 ++ x) ++ 0x1E#8) = .ok (.addI x) ∧
    decode ((0xF#4 ++ x) ++ 0x29#8) = .ok (.ldF x) ∧
    decode ((0xF#4 ++ x) ++ 0x33#8) = .ok (.ldB x) ∧
    decode ((0xF#4 ++ x) ++ 0x55#8) = .ok (.storeRegs x) ∧
    decode ((0xF#4 ++ x) ++ 0x65#8) = .ok (.loadRegs x)

/-- Decoding the word, or the bytes, of a well-formed instruction gives it back, with what follows the bytes left over. -/
def Obligations.DecodeOfEncode : Prop :=
  ∀ (i : Instr) (rest : List Byte), i.wf = true →
    decode (encode i) = .ok i ∧ decodeBytes (encodeBytes i ++ rest) = .ok (i, rest)

/-- Each word that decodes has one meaning: it is the word of the instruction it decodes to, which is well-formed. -/
def Obligations.EncodeOfDecode : Prop :=
  ∀ (w : Word) (i : Instr), decode w = .ok i → encode i = w ∧ i.wf = true

/-- R65: exactly these words are invalid (opcode numbers: D4), each rejected by the name of its class (log 13). -/
def Obligations.InvalidWordsExactly : Prop :=
  ∀ w : Word,
    (decode w = .error .invalidClass5 ↔ fieldClass w = 0x5 ∧ fieldN w ≠ 0) ∧
    (decode w = .error .invalidClass8 ↔ fieldClass w = 0x8 ∧ fieldN w ∈ [0x8#4, 0x9#4, 0xA#4, 0xB#4, 0xC#4, 0xD#4, 0xF#4]) ∧
    (decode w = .error .invalidClass9 ↔ fieldClass w = 0x9 ∧ fieldN w ≠ 0) ∧
    (decode w = .error .invalidClassE ↔ fieldClass w = 0xE ∧ fieldNN w ∉ [0x9E#8, 0xA1#8]) ∧
    (decode w = .error .invalidClassF ↔
      fieldClass w = 0xF ∧ fieldNN w ∉ [0x07#8, 0x0A#8, 0x15#8, 0x18#8, 0x1E#8, 0x29#8, 0x33#8, 0x55#8, 0x65#8]) ∧
    decode w ≠ .error .truncated

/-- A sanity statement: words of the decode table of spec/95_test_vectors.md. -/
def Obligations.KnownWordsDecode : Prop :=
  decode 0x0000 = .ok .halt ∧ decode 0x0001 = .ok (.sys 0x001) ∧ decode 0x00E1 = .ok (.sys 0x0E1) ∧
    decode 0x5120 = .ok (.seReg 1 2) ∧ decode 0x5121 = .error .invalidClass5 ∧ decode 0x812E = .ok (.shl 1 2) ∧
    decode 0x812D = .error .invalidClass8 ∧ decode 0x912F = .error .invalidClass9 ∧ decode 0xE1A1 = .ok (.sknp 1) ∧
    decode 0xE19F = .error .invalidClassE ∧ decode 0xF165 = .ok (.loadRegs 1) ∧ decode 0xF090 = .error .invalidClassF ∧
    decode 0xD000 = .ok (.drw 0 0 0)

/-! ### The register file and ALU -/

/-- R120: LD Vx, nn, with its encoding. -/
def Obligations.LoadImmediateSetsVx : Prop :=
  ∀ (x : Reg) (nn : Byte) (s : State), decode ((0x6#4 ++ x) ++ nn) = .ok (.ldImm x nn) ∧ SetsReg (.ldImm x nn) s x nn

/-- R121: ADD Vx, nn wraps modulo 256 and writes no flag (D4, D8). -/
def Obligations.AddImmediateWrapsNoFlag : Prop :=
  ∀ (x : Reg) (nn : Byte) (s : State),
    SetsReg (.addImm x nn) s x (BitVec.ofNat 8 (((s.reg x).toNat + nn.toNat) % 256))

/-- R122 to R125: copy, or, and, exclusive or; VF is unchanged unless it is the destination (D4, D8). -/
def Obligations.CopyAndBitwiseSetVx : Prop :=
  ∀ (x y : Reg) (s : State),
    SetsReg (.ldReg x y) s x (s.reg y) ∧
    SetsReg (.orReg x y) s x (s.reg x ||| s.reg y) ∧
    SetsReg (.andReg x y) s x (s.reg x &&& s.reg y) ∧
    SetsReg (.xorReg x y) s x (s.reg x ^^^ s.reg y)

/-- R131: RND masks the random byte of the step, whatever it is (D4, D18; log 2: the byte stands in `args`). -/
def Obligations.RandomByteMasked : Prop :=
  ∀ (x : Reg) (nn : Byte) (s : State), SetsReg (.rnd x nn) s x (s.args.rnd &&& nn)

/-- R126: ADD Vx, Vy; with X = 15 VF ends as the carry, and with Y = 15 VF is read before it is written (D7). -/
def Obligations.AddSetsCarry : Prop :=
  ∀ (x y : Reg) (s : State),
    SetsRegAndFlag (.addReg x y) s x (((s.reg x).toNat + (s.reg y).toNat) % 256)
      ((s.reg x).toNat + (s.reg y).toNat > 255)

/-- R127, R129: SUB and SUBN; VF is 1 exactly on a borrow (D5, D7). -/
def Obligations.SubtractSetsBorrow : Prop :=
  ∀ (x y : Reg) (s : State),
    SetsRegAndFlag (.subReg x y) s x (((s.reg x).toNat + 256 - (s.reg y).toNat) % 256)
      ((s.reg y).toNat > (s.reg x).toNat) ∧
    SetsRegAndFlag (.subnReg x y) s x (((s.reg y).toNat + 256 - (s.reg x).toNat) % 256)
      ((s.reg x).toNat > (s.reg y).toNat)

/-- R128, R130: SHR and SHL of `V[X]` (D6: the destination itself is shifted); VF is the bit shifted out (D7). -/
def Obligations.ShiftsSetBitOut : Prop :=
  ∀ (x y : Reg) (s : State),
    SetsRegAndFlag (.shr x y) s x ((s.reg x).toNat / 2) ((s.reg x).toNat % 2 = 1) ∧
    SetsRegAndFlag (.shl x y) s x ((s.reg x).toNat * 2 % 256) ((s.reg x).toNat ≥ 128)

/-! ### Control flow -/

/-- R105, R302: HALT sets the status and nothing else, and a step that runs it ends there: `pc` stays on the word and the input
latch is not replaced (D31). -/
def Obligations.HaltStopsOnItsWord : Prop :=
  (∀ s : State, ∃ t, exec .halt s = .next t ∧ t.status = .halted ∧ Frame [.status] s t) ∧
  ∀ s : State, s.status = .running → s.wait = .none → s.fetch hardware = .ok 0x0000 →
    ∃ t, step s = .next t ∧ t.status = .halted ∧ t.tone = decide (s.st ≠ 0) ∧
      t.dt.toNat = s.dt.toNat - 1 ∧ t.st.toNat = s.st.toNat - 1 ∧
      Frame [.status, .dt, .st, .tone, .args, .inputs, .steps] s t

/-- R106: SYS does nothing, for every operand, and the step then advances `pc`; at 0xFFE the advance raises OutOfBounds
(D23). -/
def Obligations.SysOnlyAdvances : Prop :=
  ∀ (nnn : Addr12) (s : State),
    (∃ t, exec (.sys nnn) s = .next t ∧ Frame [] s t) ∧
    (s.status = .running → s.wait = .none → s.jumped = false → s.fetch hardware = .ok (0x0#4 ++ nnn) →
      nnn ≠ 0x000 → nnn ≠ 0x0E0 → nnn ≠ 0x0EE →
      ∃ t, step s = .next t ∧
        (s.pc ≠ 0xFFE → t.pc = s.pc + 2 ∧ Frame [.pc, .dt, .st, .tone, .keys, .args, .inputs, .steps] s t) ∧
        (s.pc = 0xFFE → t.status = .error .outOfBounds 0xFFE ∧
          Frame [.status, .dt, .st, .tone, .args, .inputs, .steps] s t))

/-- R140, R147: JP and JP V0 store the target, neither masked nor checked (D4, D11). -/
def Obligations.JumpsStoreTarget : Prop :=
  ∀ (nnn : Addr12) (s : State),
    (∃ t, exec (.jp nnn) s = .next t ∧ t.pc.toNat = nnn.toNat ∧ t.jumped = true ∧ Frame [.pc, .jumped] s t) ∧
    (∃ t, exec (.jpV0 nnn) s = .next t ∧ t.pc.toNat = nnn.toNat + (s.reg 0).toNat ∧ t.jumped = true ∧
      Frame [.pc, .jumped] s t)

/-- R141: CALL pushes its own address and jumps (C3, D10), and raises StackOverflow when 16 entries are held (D1). -/
def Obligations.CallPushesOrOverflows : Prop :=
  ∀ (nnn : Addr12) (s : State), StackFits hardware s →
    (s.sp < 16 →
      ∃ t, exec (.call nnn) s = .next t ∧ t.pc.toNat = nnn.toNat ∧ t.jumped = true ∧ t.sp = s.sp + 1 ∧ StackFits hardware t ∧
        (∀ k, t.entry k = if k = s.sp then s.pc else s.entry k) ∧ Frame [.pc, .jumped, .sp, .stack] s t) ∧
    (s.sp = 16 → Raises (.call nnn) s .stackOverflow)

/-- R142: RET pops an address and jumps to the word after it, leaving the entry as it is (C3, D10); StackUnderflow when the
stack is empty. The sum is taken in 16 bits, which shows only in states no run reaches (log 8). -/
def Obligations.RetPopsOrUnderflows : Prop :=
  ∀ s : State, StackFits hardware s →
    (∀ k, s.sp = k + 1 →
      ∃ t, exec .ret s = .next t ∧ t.pc = s.entry k + 2 ∧ t.jumped = true ∧ t.sp = k ∧ Frame [.pc, .jumped, .sp] s t) ∧
    (s.sp = 0 → Raises .ret s .stackUnderflow)

/-- R142, C3 and the source's §8: a CALL that succeeds, then RET, comes back to the word after the CALL with the stack as deep
as before (D10; the sum in 16 bits, log 8). -/
def Obligations.CallThenRetComesBack : Prop :=
  ∀ (nnn : Addr12) (s : State), StackFits hardware s → s.sp < 16 →
    ∃ t u, exec (.call nnn) s = .next t ∧ exec .ret t = .next u ∧ u.pc = s.pc + 2 ∧ u.sp = s.sp ∧
      (∀ k, k ≠ s.sp → u.entry k = s.entry k) ∧ Frame [.pc, .jumped, .stack] s u

/-- R143, R144: the skips against an immediate (D4; `pc + 4` in 16 bits, log 8). -/
def Obligations.SkipsOnImmediate : Prop :=
  ∀ (x : Reg) (nn : Byte) (s : State),
    SkipsIf (.seImm x nn) s (s.reg x = nn) ∧ SkipsIf (.sneImm x nn) s (s.reg x ≠ nn)

/-- R145, R146: the skips on two registers; 5xy0 skips on equality (D4, D9, C9; `pc + 4` in 16 bits, log 8). -/
def Obligations.SkipsOnRegisters : Prop :=
  ∀ (x y : Reg) (s : State),
    SkipsIf (.seReg x y) s (s.reg x = s.reg y) ∧ SkipsIf (.sneReg x y) s (s.reg x ≠ s.reg y)

/-! ### The address register and memory -/

/-- R160 to R162: LD I, ADD I (modulo 65536, no flag; D15) and LD F (glyph of the low nibble; D2, D17). -/
def Obligations.AddressRegisterWrites : Prop :=
  ∀ (nnn : Addr12) (x : Reg) (s : State),
    (∃ t, exec (.ldI nnn) s = .next t ∧ t.i.toNat = nnn.toNat ∧ Frame [.i] s t) ∧
    (∃ t, exec (.addI x) s = .next t ∧ t.i.toNat = (s.i.toNat + (s.reg x).toNat) % 65536 ∧ Frame [.i] s t) ∧
    (∃ t, exec (.ldF x) s = .next t ∧ t.i.toNat = 5 * ((s.reg x).toNat % 16) ∧ Frame [.i] s t)

/-- R163, R44: LD B stores the digits at `base = I & 0xFFF` and the two bytes above, or raises OutOfBounds with nothing written
(D13, D14, D34). -/
def Obligations.DecimalStoreOrError : Prop :=
  ∀ (x : Reg) (s : State),
    (s.base + 2 ≤ 0xFFF →
      ∃ t, exec (.ldB x) s = .next t ∧
        (t.byte hardware s.base).toNat = (s.reg x).toNat / 100 ∧
        (t.byte hardware (s.base + 1)).toNat = (s.reg x).toNat / 10 % 10 ∧
        (t.byte hardware (s.base + 2)).toNat = (s.reg x).toNat % 10 ∧
        BytesExcept s.base 3 s t ∧ Frame [.mem] s t) ∧
    (s.base + 2 > 0xFFF → Raises (.ldB x) s .outOfBounds)

/-- R164, R44: LD [I], Vx stores V0 to Vx at `base` and above with `I` unchanged (D16), or raises OutOfBounds with nothing
written (D13, D14). -/
def Obligations.BlockStoreOrError : Prop :=
  ∀ (x : Reg) (s : State),
    (s.base + x.toNat ≤ 0xFFF →
      ∃ t, exec (.storeRegs x) s = .next t ∧
        (∀ k : Reg, k.toNat ≤ x.toNat → t.byte hardware (s.base + k.toNat) = s.reg k) ∧
        BytesExcept s.base (x.toNat + 1) s t ∧ Frame [.mem] s t) ∧
    (s.base + x.toNat > 0xFFF → Raises (.storeRegs x) s .outOfBounds)

/-- R165, R44: LD Vx, [I] loads V0 to Vx from `base` and above with `I` unchanged (D16), or raises OutOfBounds with nothing
written (D13, D14). -/
def Obligations.BlockLoadOrError : Prop :=
  ∀ (x : Reg) (s : State),
    (s.base + x.toNat ≤ 0xFFF →
      ∃ t, exec (.loadRegs x) s = .next t ∧
        (∀ k : Reg, t.reg k = if k.toNat ≤ x.toNat then s.byte hardware (s.base + k.toNat) else s.reg k) ∧
        Frame [.regs] s t) ∧
    (s.base + x.toNat > 0xFFF → Raises (.loadRegs x) s .outOfBounds)

/-- R22, R44: the base of every access through `I` is the low 12 bits of `I` (D14). -/
def Obligations.BaseIsLowTwelveBits : Prop := ∀ s : State, s.base = s.i.toNat % 4096

/-- R42, R43: the two memory primitives, at every address (D25: the reserved region is writable). -/
def Obligations.MemoryPrimitives : Prop :=
  ∀ (s : State) (a : Nat) (v : Byte),
    (a > 0xFFF → s.memRead hardware a = .error .outOfBounds ∧ s.memWrite hardware a v = .error .outOfBounds) ∧
    (a ≤ 0xFFF → s.memRead hardware a = .ok (s.byte hardware a) ∧
      ∃ t, s.memWrite hardware a v = .ok t ∧ t.byte hardware a = v ∧ BytesExcept a 1 s t ∧ Frame [.mem] s t)

/-! ### The display -/

/-- R180: CLS clears every byte of the framebuffer, so that every pixel reads 0, and changes nothing else. -/
def Obligations.ClsClearsEveryPixel : Prop :=
  decode 0x00E0 = .ok .cls ∧
  ∀ s : State, ∃ t, exec .cls s = .next t ∧ (∀ r j, t.fbByte r j = 0) ∧ (∀ c r, t.pixel c r = false) ∧ Frame [.fb] s t

/-- R181: DRW composes by exclusive or, pixel by pixel, wrapping in both directions, and VF is 1 exactly if a lit pixel is turned
off. The rule gives the byte split and derives the pixels from it (D13, D14, D19, D20). -/
def Obligations.DrawXorsPixels : Prop :=
  ∀ (x y : Reg) (n : Nibble) (s : State), s.base + n.toNat ≤ 0x1000 →
    ∃ t, exec (.drw x y n) s = .next t ∧
      (∀ c r, SpriteLit s x y n c r → t.pixel c r = !s.pixel c r) ∧
      (∀ c r, ¬SpriteLit s x y n c r → t.pixel c r = s.pixel c r) ∧
      ((∃ c r, SpriteLit s x y n c r ∧ s.pixel c r = true) → t.reg vf = 1) ∧
      ((¬∃ c r, SpriteLit s x y n c r ∧ s.pixel c r = true) → t.reg vf = 0) ∧
      RegsExcept [vf] s t ∧ Frame [.regs, .fb] s t

/-- R181, R44: DRW raises OutOfBounds, before any write, if the sprite's last byte lies beyond 0xFFF, and never with N = 0. -/
def Obligations.DrawErrorExactly : Prop :=
  ∀ (x y : Reg) (n : Nibble) (s : State), s.status = .running →
    (0 < n.toNat ∧ s.base + n.toNat - 1 > 0xFFF → Raises (.drw x y n) s .outOfBounds) ∧
    (¬(0 < n.toNat ∧ s.base + n.toNat - 1 > 0xFFF) → ∃ t, exec (.drw x y n) s = .next t ∧ t.status = .running)

/-- R181 and the source's §8: drawing the same sprite at the same place twice restores every pixel. The second time VF is 1
exactly if the sprite has a lit pixel on a pixel that was dark at first; on a clear screen that is, exactly if the sprite has a lit
bit (log 12). VF is no coordinate here, so that the place is the same. -/
def Obligations.DrawTwiceRestores : Prop :=
  ∀ (x y : Reg) (n : Nibble) (s : State), x ≠ vf → y ≠ vf → s.base + n.toNat ≤ 0x1000 →
    ∃ t u, exec (.drw x y n) s = .next t ∧ exec (.drw x y n) t = .next u ∧ (∀ c r, u.pixel c r = s.pixel c r) ∧
      (u.reg vf = 1 ↔ ∃ c r, SpriteLit s x y n c r ∧ s.pixel c r = false) ∧ (u.reg vf = 0 ∨ u.reg vf = 1) ∧
      ((∀ c r, s.pixel c r = false) → (u.reg vf = 1 ↔ ∃ k, k < n.toNat ∧ s.byte hardware (s.base + k) ≠ 0))

/-! ### Timers and input -/

/-- R200 to R202: the timer transfers (D4). -/
def Obligations.TimerTransfers : Prop :=
  ∀ (x : Reg) (s : State),
    SetsReg (.ldVxDT x) s x s.dt ∧
    (∃ t, exec (.ldDTVx x) s = .next t ∧ t.dt = s.reg x ∧ Frame [.dt] s t) ∧
    (∃ t, exec (.ldSTVx x) s = .next t ∧ t.st = s.reg x ∧ Frame [.st] s t)

/-- R210, R211: the key skips, on bit `V[X] & 0xF` of the latch (D4, D22; `pc + 4` in 16 bits, log 8). -/
def Obligations.SkipsOnKey : Prop :=
  ∀ (x : Reg) (s : State),
    SkipsIf (.skp x) s (s.keys.toNat / 2 ^ ((s.reg x).toNat % 16) % 2 = 1) ∧
    SkipsIf (.sknp x) s (s.keys.toNat / 2 ^ ((s.reg x).toNat % 16) % 2 = 0)

/-- R212: LD Vx, K only enters the wait, with the present mask recorded (D4, D21). -/
def Obligations.KeyWaitEntry : Prop :=
  ∀ (x : Reg) (s : State), ∃ t, exec (.ldVxK x) s = .next t ∧ t.wait = .waiting x s.keys ∧ Frame [.wait] s t

/-- R213: the waiting step (D21, D23, D26). With no newly pressed key the machine waits on, with the present mask recorded; with one,
the least index goes to `V[x]`, the wait ends and `pc` passes the word, or the advance raises OutOfBounds. -/
def Obligations.WaitingStep : Prop :=
  ∀ (s : State) (x : Reg) (seen : Word), s.status = .running → s.jumped = false → s.wait = .waiting x seen →
    ((∀ k, k < 16 → s.keys.getLsbD k = true → seen.getLsbD k = true) →
      ∃ t, step s = .next t ∧ t.wait = .waiting x s.keys ∧ t.keys = s.nextArgs.keysNext ∧
        Frame [.wait, .keys, .dt, .st, .tone, .args, .inputs, .steps] s t) ∧
    (∀ k, k < 16 → s.keys.getLsbD k = true → seen.getLsbD k = false →
      (∀ m, m < k → s.keys.getLsbD m = true → seen.getLsbD m = true) →
      ∃ t, step s = .next t ∧ t.wait = .none ∧ (t.reg x).toNat = k ∧ RegsExcept [x] s t ∧
        (s.pc.toNat + 2 ≤ 0xFFF → t.pc.toNat = s.pc.toNat + 2 ∧ t.keys = s.nextArgs.keysNext ∧
          Frame [.regs, .wait, .pc, .keys, .dt, .st, .tone, .args, .inputs, .steps] s t) ∧
        (s.pc.toNat + 2 > 0xFFF → t.status = .error .outOfBounds s.pc ∧
          Frame [.regs, .wait, .status, .dt, .st, .tone, .args, .inputs, .steps] s t))

/-! ### The step -/

/-- R100, R101, R102: where the two bytes at an even `pc` decode to `i`, a running machine that does not wait takes its arguments
and ticks its timers, then runs `exec i`, then ends the step (D26, D27; log 2). -/
def Obligations.StepRunsDecodedInstr : Prop :=
  ∀ (s : State) (i : Instr), s.status = .running → s.wait = .none → s.pc.toNat % 2 = 0 → s.pc.toNat + 1 ≤ 0xFFF →
    decode (s.byte hardware s.pc.toNat ++ s.byte hardware (s.pc.toNat + 1)) = .ok i →
    step s =
      match exec i s.takeArgs.tick with
      | .next t => .next t.endStep
      | .fault f => .fault f
      | .refused r => .refused r

/-- R320, R321: what stands before phase 2: each timer is down by one if it was nonzero, the tone bit is of the old ST, and the
arguments of this call are in place (D26; logs 1 to 4). -/
def Obligations.TickBeforeInstr : Prop :=
  ∀ s : State,
    s.takeArgs.tick.dt.toNat = s.dt.toNat - 1 ∧ s.takeArgs.tick.st.toNat = s.st.toNat - 1 ∧
    s.takeArgs.tick.tone = decide (s.st ≠ 0) ∧ s.takeArgs.tick.args = s.nextArgs ∧
    Frame [.dt, .st, .tone, .args, .inputs, .steps] s s.takeArgs.tick

/-- R100 phases 5 to 7, R104: the end of a step that has not stopped. Without a jump `pc` advances by 2, or the advance raises
OutOfBounds and the instruction's effects stand (D23); a jump or a wait leaves `pc` alone; then the jump flag is cleared and the
latch replaced (D27). -/
def Obligations.EndOfStep : Prop :=
  ∀ s : State,
    (s.status ≠ .running → Frame [] s s.endStep) ∧
    (s.status = .running → s.jumped = false → s.wait = .none → s.pc.toNat + 2 ≤ 0xFFF →
      s.endStep.pc.toNat = s.pc.toNat + 2 ∧ s.endStep.keys = s.args.keysNext ∧ Frame [.pc, .keys] s s.endStep) ∧
    (s.status = .running → s.jumped = false → s.wait = .none → s.pc.toNat + 2 > 0xFFF →
      s.endStep.status = .error .outOfBounds s.pc ∧ Frame [.status] s s.endStep) ∧
    (s.status = .running → (s.jumped = true ∨ s.wait ≠ .none) →
      s.endStep.jumped = false ∧ s.endStep.keys = s.args.keysNext ∧ Frame [.jumped, .keys] s s.endStep)

/-- R47: the instruction word is `Mem[pc] * 256 + Mem[pc + 1]`. -/
def Obligations.FetchIsBigEndian : Prop :=
  ∀ s : State, s.pc.toNat % 2 = 0 → s.pc.toNat + 1 ≤ 0xFFF →
    ∃ w, s.fetch hardware = .ok w ∧ w.toNat = (s.byte hardware s.pc.toNat).toNat * 256 + (s.byte hardware (s.pc.toNat + 1)).toNat

/-- R101, R306: the fetch errors of a step, alignment first (D12, D29); the timer tick, each timer down by one
if it was nonzero and the tone bit of the old ST, stands (R303, D26). -/
def Obligations.FetchErrorsStop : Prop :=
  ∀ s : State, s.status = .running → s.wait = .none →
    (s.pc.toNat % 2 = 1 →
      ∃ t, step s = .next t ∧ t.status = .error .misalignedFetch s.pc ∧ t.dt.toNat = s.dt.toNat - 1 ∧ t.st.toNat = s.st.toNat - 1 ∧
        t.tone = decide (s.st ≠ 0) ∧
        Frame [.status, .dt, .st, .tone, .args, .inputs, .steps] s t) ∧
    (s.pc.toNat % 2 = 0 → s.pc.toNat + 1 > 0xFFF →
      ∃ t, step s = .next t ∧ t.status = .error .outOfBounds s.pc ∧ t.dt.toNat = s.dt.toNat - 1 ∧ t.st.toNat = s.st.toNat - 1 ∧
        t.tone = decide (s.st ≠ 0) ∧
        Frame [.status, .dt, .st, .tone, .args, .inputs, .steps] s t)

/-- R102: a word that decodes to no operation raises InvalidInstruction; the timer tick, as in `FetchErrorsStop`, stands (R303,
D26). -/
def Obligations.InvalidWordStops : Prop :=
  ∀ (s : State) (w : Word) (r : Reject), s.status = .running → s.wait = .none → s.fetch hardware = .ok w →
    decode w = .error r →
    ∃ t, step s = .next t ∧ t.status = .error .invalidInstruction s.pc ∧ t.dt.toNat = s.dt.toNat - 1 ∧ t.st.toNat = s.st.toNat - 1 ∧
      t.tone = decide (s.st ≠ 0) ∧
      Frame [.status, .dt, .st, .tone, .args, .inputs, .steps] s t

/-- R107: a stopped machine's step changes no state element and returns the same status with tone false (D24; log 4). -/
def Obligations.StoppedMachineStays : Prop :=
  ∀ s : State, s.status ≠ .running →
    ∃ t, step s = .next t ∧ t.tone = false ∧ t.output.1 = s.output.1 ∧ Frame [.tone] s t

/-- R321, R100 phase 7, R28: every running step returns the tone bit of the ST it began with, replaces the latch with the mask
supplied to it if it does not stop, and leaves the latch alone if it does (D26, D27). -/
def Obligations.ToneAndLatchOfEveryStep : Prop :=
  ∀ s t : State, s.status = .running → step s = .next t →
    t.tone = decide (s.st ≠ 0) ∧ (t.status = .running → t.keys = s.nextArgs.keysNext) ∧
    (t.status ≠ .running → t.keys = s.keys)

/-- R320: in every running step each timer is down by one if it was nonzero, unless the instruction of the step writes it
(R201, R202; D26). -/
def Obligations.TimersOfEveryStep : Prop :=
  ∀ s t : State, s.status = .running → step s = .next t →
    (t.dt.toNat = s.dt.toNat - 1 ∨
      ∃ w x, s.wait = .none ∧ s.fetch hardware = .ok w ∧ decode w = .ok (.ldDTVx x) ∧ t.dt = s.reg x) ∧
    (t.st.toNat = s.st.toNat - 1 ∨
      ∃ w x, s.wait = .none ∧ s.fetch hardware = .ok w ∧ decode w = .ok (.ldSTVx x) ∧ t.st = s.reg x)

/-- R100: the step function returns to its caller on every call: from every state the model's step has a next state, never a
fault or a refusal. -/
def Obligations.StepAlwaysReturns : Prop := ∀ s : State, ∃ t, step s = .next t

/-! ### Rules over all instructions -/

/-- R22, R25 to R28, R30, R31 and the summary table of spec/10_state.md: which instructions write which piece of state. -/
def Obligations.OnlyTheseInstructionsWrite : Prop :=
  ∀ (i : Instr) (s t : State), exec i s = .next t →
    (t.i ≠ s.i → (∃ nnn, i = .ldI nnn) ∨ (∃ x, i = .addI x) ∨ (∃ x, i = .ldF x)) ∧
    (t.dt ≠ s.dt → ∃ x, i = .ldDTVx x) ∧
    (t.st ≠ s.st → ∃ x, i = .ldSTVx x) ∧
    (t.stack ≠ s.stack → ∃ nnn, i = .call nnn) ∧
    (t.sp ≠ s.sp → i = .ret ∨ ∃ nnn, i = .call nnn) ∧
    (t.fb ≠ s.fb → i = .cls ∨ ∃ x y n, i = .drw x y n) ∧
    (t.mem ≠ s.mem → (∃ x, i = .ldB x) ∨ (∃ x, i = .storeRegs x)) ∧
    (t.wait ≠ s.wait → ∃ x, i = .ldVxK x) ∧
    (t.pc ≠ s.pc ∨ t.jumped ≠ s.jumped → t.jumped = true) ∧
    (t.jumped ≠ s.jumped →
      i = .ret ∨ (∃ nnn, i = .jp nnn ∨ i = .call nnn ∨ i = .jpV0 nnn) ∨
      (∃ x nn, i = .seImm x nn ∨ i = .sneImm x nn) ∨ (∃ x y, i = .seReg x y ∨ i = .sneReg x y) ∨
      ∃ x, i = .skp x ∨ i = .sknp x) ∧
    Frame [.regs, .i, .pc, .dt, .st, .stack, .sp, .fb, .mem, .jumped, .wait, .status] s t

/-- R21: VF is written by the instructions that define a flag outcome, and else only by an instruction whose destination it is
(D7, D8). -/
def Obligations.VfWrittenOnlyBy : Prop :=
  ∀ (i : Instr) (s t : State), exec i s = .next t → t.reg vf ≠ s.reg vf →
    (∃ x y, i = .addReg x y ∨ i = .subReg x y ∨ i = .subnReg x y ∨ i = .shr x y ∨ i = .shl x y) ∨
    (∃ x y n, i = .drw x y n) ∨
    (∃ nn, i = .ldImm vf nn ∨ i = .addImm vf nn ∨ i = .rnd vf nn) ∨
    (∃ y, i = .ldReg vf y ∨ i = .orReg vf y ∨ i = .andReg vf y ∨ i = .xorReg vf y) ∨
    i = .ldVxDT vf ∨ i = .loadRegs vf

/-- R102, R300, R303, R306, R310: an instruction that stops the machine with an error has written nothing else, and records the
present `pc`; each kind comes from its own instructions, on its own condition (D13). -/
def Obligations.ErrorsArePrecise : Prop :=
  ∀ (i : Instr) (s t : State) (k : ErrorKind) (e : Word),
    s.status = .running → exec i s = .next t → t.status = .error k e →
    e = s.pc ∧ Frame [.status] s t ∧
    ((k = .stackOverflow ∧ s.sp = 16 ∧ ∃ nnn, i = .call nnn) ∨
     (k = .stackUnderflow ∧ s.sp = 0 ∧ i = .ret) ∨
     (k = .outOfBounds ∧
       ((∃ x, i = .ldB x ∧ s.base + 2 > 0xFFF) ∨ (∃ x, i = .storeRegs x ∧ s.base + x.toNat > 0xFFF) ∨
        (∃ x, i = .loadRegs x ∧ s.base + x.toNat > 0xFFF) ∨
        (∃ x y n, i = .drw x y n ∧ 0 < n.toNat ∧ s.base + n.toNat - 1 > 0xFFF))))

/-- R100: the random byte is "used only by RND": no other instruction reads it (D18). -/
def Obligations.OnlyRndReadsRandomByte : Prop :=
  ∀ (i : Instr) (s t : State) (b : Byte), (∀ x nn, i ≠ .rnd x nn) → exec i s = .next t →
    exec i { s with args := { s.args with rnd := b } } = .next { t with args := { t.args with rnd := b } }

/-! ### Reset, load, and the invariants -/

/-- R400: every state element after reset (D1, D2, D21, D24; the model's own fields are left out). The glyph bytes of R46 stand in `GlyphsAtReset`. -/
def Obligations.ResetLeaves : Prop :=
  (∀ r, State.reset.reg r = 0) ∧ State.reset.i = 0 ∧ State.reset.pc = 0x200 ∧ State.reset.dt = 0 ∧ State.reset.st = 0 ∧
    State.reset.sp = 0 ∧ StackFits hardware State.reset ∧ (∀ k, State.reset.entry k = 0) ∧ (∀ r j, State.reset.fbByte r j = 0) ∧
    State.reset.keys = 0 ∧ State.reset.jumped = false ∧ State.reset.wait = .none ∧ State.reset.status = .running ∧
    (∀ a, a < 0x1000 → 80 ≤ a → State.reset.byte hardware a = 0)

/-- R45, R46: the glyph sprite of digit `d` stands at `5 * d`, top row first (D2, D3: the table is the spec's own). -/
def Obligations.GlyphsAtReset : Prop :=
  ∀ d row : Nat, d < 16 → row < 5 →
    State.reset.byte hardware (5 * d + row) =
      BitVec.ofNat 8 ((([0xF0909090F0, 0x2060202070, 0xF010F080F0, 0xF010F010F0, 0x9090F01010, 0xF080F010F0, 0xF080F090F0,
        0xF010204040, 0xF090F090F0, 0xF090F010F0, 0xF090F09090, 0xE090E090E0, 0xF0808080F0, 0xE0909090E0, 0xF080F080F0,
        0xF080F08080] : List Nat).getD d 0) / 256 ^ (4 - row) % 256)

/-- R401: the load operation on a machine that has not stepped writes the image at 0x200 and changes nothing else, fails with
LoadTooLarge above 3584 bytes, and is refused after the first step (D30; logs 3, 10). -/
def Obligations.LoadPlacesImage : Prop :=
  ∀ (bytes : List Byte) (s : State),
    (s.steps = 0 → bytes.length ≤ 3584 →
      ∃ t, s.load bytes = .next t ∧ (∀ k (h : k < bytes.length), t.byte hardware (0x200 + k) = bytes[k]'h) ∧
        BytesExcept 0x200 bytes.length s t ∧ Frame [.mem] s t) ∧
    (s.steps = 0 → bytes.length > 3584 → s.load bytes = .fault .loadTooLarge) ∧
    (s.steps ≠ 0 → s.load bytes = .refused .loadAfterStart)

/-- R403, R47: a word placed at an even `pc` inside memory is the word the next step fetches (log 9). -/
def Obligations.PlacedWordIsFetched : Prop :=
  ∀ (s : State) (w : Word), s.pc.toNat % 2 = 0 → s.pc.toNat + 1 ≤ 0xFFF → (s.placeWord w).fetch hardware = .ok w

/-- Every step keeps memory in its one canonical form, so that equal memories are equal data (log 7). -/
def Obligations.StepKeepsMemoryCanonical : Prop :=
  ∀ s t : State, MemoryCanonical s → step s = .next t → MemoryCanonical t

/-- R24, R26, R141, R142: every step keeps `pc` at most 0x10FE, the stack at its size with SP inside it, and every stack entry the
even address of a word in memory (D1, D10, D11, D12). -/
def Obligations.StepKeepsPcAndStack : Prop :=
  ∀ s t : State, PcAndStackInRange s → step s = .next t → PcAndStackInRange t

/-- R30: the jump flag is false between steps. -/
def Obligations.StepKeepsJumpFlagClear : Prop :=
  ∀ s t : State, JumpFlagClear s → step s = .next t → JumpFlagClear t

/-- R108, R300: an error records the `pc` the machine stays at, and no step raises LoadTooLarge (D32). -/
def Obligations.StepKeepsStopRecord : Prop :=
  ∀ s t : State, StopRecordsPc s → step s = .next t → StopRecordsPc t

/-- R31, R212, R213: a machine that waits has its `pc` on the Fx0A word that named the register (D21). -/
def Obligations.StepKeepsWaitOnKeyWord : Prop :=
  ∀ s t : State, WaitsOnKeyWord s → step s = .next t → WaitsOnKeyWord t

/-- The machine after reset meets the five invariants, and is safe. -/
def Obligations.ResetMeetsInvariants : Prop :=
  MemoryCanonical State.reset ∧ PcAndStackInRange State.reset ∧ JumpFlagClear State.reset ∧ StopRecordsPc State.reset ∧
    WaitsOnKeyWord State.reset ∧ Safe State.reset

/-- R9: "A model takes each as an argument". `exec`, `step`, the load and the machine after reset are the parametric ones at this
hardware's parameters, and each parameter has its effect at every value: the stack's capacity (R26, R141), the glyphs and their
address (R45, R162), the shift source (R128, R130), the skip sense (R145), the odd fetch (R101), the increment of `I` (R164,
R165) and the protection of the reserved region (R43, R163, R164; D1 to D3, D6, D9, D12, D16, D25). -/
def Obligations.ParametersAreArguments : Prop :=
  (∀ i s, exec i s = execWith hardware i s) ∧ (∀ s, step s = stepWith hardware s) ∧ State.reset = State.resetWith hardware ∧
  (∀ (s : State) bytes, s.load bytes = s.loadWith hardware bytes) ∧
  ∀ (p : Config.Params) (x y : Reg) (nnn : Addr12) (s : State),
    (StackFits p (State.resetWith p) ∧ (s.sp = p.stackCapacity → execWith p (.call nnn) s = .next (s.raise .stackOverflow)) ∧
      (s.sp ≠ p.stackCapacity → ∃ t, execWith p (.call nnn) s = .next t ∧ t.sp = s.sp + 1 ∧ t.status = s.status)) ∧
    ((∀ k, k < p.glyphs.length → (State.resetWith p).byte p (p.fontBase + k) = p.glyphs.getD k 0) ∧
      (∀ a, a < p.fontBase ∨ p.fontBase + p.glyphs.length ≤ a → (State.resetWith p).byte p a = 0) ∧
      (p.fontBase < 0x1000 →
        ∃ t, execWith p (.ldF x) s = .next t ∧ t.i.toNat = p.fontBase + 5 * ((s.reg x).toNat % 16) ∧ Frame [.i] s t)) ∧
    (∀ src, src = (if p.shiftSource = .x then s.reg x else s.reg y) →
      (∃ t, execWith p (.shr x y) s = .next t ∧ (x ≠ vf → (t.reg x).toNat = src.toNat / 2) ∧
        (t.reg vf).toNat = src.toNat % 2 ∧ RegsExcept [x, vf] s t ∧ Frame [.regs] s t) ∧
      ∃ t, execWith p (.shl x y) s = .next t ∧ (x ≠ vf → (t.reg x).toNat = src.toNat * 2 % 256) ∧
        (t.reg vf).toNat = src.toNat / 128 ∧ RegsExcept [x, vf] s t ∧ Frame [.regs] s t) ∧
    (∃ t, execWith p (.seReg x y) s = .next t ∧
      ((s.reg x = s.reg y ↔ p.seVxVyBaselineBug = false) → t = s.jump (s.pc + 4)) ∧
      (¬(s.reg x = s.reg y ↔ p.seVxVyBaselineBug = false) → t = s)) ∧
    (s.pc.toNat + 1 ≤ 0xFFF →
      s.fetch p = if s.pc.toNat % 2 = 1 ∧ p.oddPcPolicy = .fault then .error .misalignedFetch
        else .ok (s.byte p s.pc.toNat ++ s.byte p (s.pc.toNat + 1))) ∧
    (s.base + x.toNat ≤ 0xFFF →
      ∃ t, execWith p (.loadRegs x) s = .next t ∧
        t.i.toNat = if p.ldstIncrementsI = true then (s.i.toNat + x.toNat + 1) % 65536 else s.i.toNat) ∧
    (s.base + x.toNat ≤ 0xFFF → p.protectReserved = false ∨ 0x200 ≤ s.base →
      ∃ t, execWith p (.storeRegs x) s = .next t ∧ t.status = s.status ∧
        t.i.toNat = if p.ldstIncrementsI = true then (s.i.toNat + x.toNat + 1) % 65536 else s.i.toNat) ∧
    (p.protectReserved = true → s.base < 0x200 →
      execWith p (.ldB x) s = .next (s.raise .outOfBounds) ∧ execWith p (.storeRegs x) s = .next (s.raise .outOfBounds))
end

