-- ==== Sys2Proof/Laws/State.lean ====
section
/-! SUPPORT. What each named update of the state does to each field, and to what registers and memory read as. -/

namespace Sys2Proof.Machine

open Sys2Proof

/-! ### `State.setReg` -/

@[simp] theorem setReg_v (s : State) (r : Reg) (b : Byte) : (s.setReg r b).v = s.v.set r.toNat b r.isLt := rfl
@[simp] theorem setReg_i (s : State) (r : Reg) (b : Byte) : (s.setReg r b).i = s.i := rfl
@[simp] theorem setReg_pc (s : State) (r : Reg) (b : Byte) : (s.setReg r b).pc = s.pc := rfl
@[simp] theorem setReg_dt (s : State) (r : Reg) (b : Byte) : (s.setReg r b).dt = s.dt := rfl
@[simp] theorem setReg_st (s : State) (r : Reg) (b : Byte) : (s.setReg r b).st = s.st := rfl
@[simp] theorem setReg_stack (s : State) (r : Reg) (b : Byte) : (s.setReg r b).stack = s.stack := rfl
@[simp] theorem setReg_sp (s : State) (r : Reg) (b : Byte) : (s.setReg r b).sp = s.sp := rfl
@[simp] theorem setReg_fb (s : State) (r : Reg) (b : Byte) : (s.setReg r b).fb = s.fb := rfl
@[simp] theorem setReg_keys (s : State) (r : Reg) (b : Byte) : (s.setReg r b).keys = s.keys := rfl
@[simp] theorem setReg_mem (s : State) (r : Reg) (b : Byte) : (s.setReg r b).mem = s.mem := rfl
@[simp] theorem setReg_jumped (s : State) (r : Reg) (b : Byte) : (s.setReg r b).jumped = s.jumped := rfl
@[simp] theorem setReg_wait (s : State) (r : Reg) (b : Byte) : (s.setReg r b).wait = s.wait := rfl
@[simp] theorem setReg_status (s : State) (r : Reg) (b : Byte) : (s.setReg r b).status = s.status := rfl
@[simp] theorem setReg_tone (s : State) (r : Reg) (b : Byte) : (s.setReg r b).tone = s.tone := rfl
@[simp] theorem setReg_args (s : State) (r : Reg) (b : Byte) : (s.setReg r b).args = s.args := rfl
@[simp] theorem setReg_inputs (s : State) (r : Reg) (b : Byte) : (s.setReg r b).inputs = s.inputs := rfl
@[simp] theorem setReg_steps (s : State) (r : Reg) (b : Byte) : (s.setReg r b).steps = s.steps := rfl
@[simp] theorem byte_setReg (p : Config.Params) (s : State) (r : Reg) (b : Byte) (c : Nat) : (s.setReg r b).byte p c = s.byte p c := rfl
@[simp] theorem base_setReg (s : State) (r : Reg) (b : Byte) : (s.setReg r b).base = s.base := rfl

/-! ### `State.setByte` -/

@[simp] theorem setByte_v (p : Config.Params) (s : State) (a : Nat) (b : Byte) : (s.setByte p a b).v = s.v := rfl
@[simp] theorem setByte_i (p : Config.Params) (s : State) (a : Nat) (b : Byte) : (s.setByte p a b).i = s.i := rfl
@[simp] theorem setByte_pc (p : Config.Params) (s : State) (a : Nat) (b : Byte) : (s.setByte p a b).pc = s.pc := rfl
@[simp] theorem setByte_dt (p : Config.Params) (s : State) (a : Nat) (b : Byte) : (s.setByte p a b).dt = s.dt := rfl
@[simp] theorem setByte_st (p : Config.Params) (s : State) (a : Nat) (b : Byte) : (s.setByte p a b).st = s.st := rfl
@[simp] theorem setByte_stack (p : Config.Params) (s : State) (a : Nat) (b : Byte) : (s.setByte p a b).stack = s.stack := rfl
@[simp] theorem setByte_sp (p : Config.Params) (s : State) (a : Nat) (b : Byte) : (s.setByte p a b).sp = s.sp := rfl
@[simp] theorem setByte_fb (p : Config.Params) (s : State) (a : Nat) (b : Byte) : (s.setByte p a b).fb = s.fb := rfl
@[simp] theorem setByte_keys (p : Config.Params) (s : State) (a : Nat) (b : Byte) : (s.setByte p a b).keys = s.keys := rfl
@[simp] theorem setByte_mem (p : Config.Params) (s : State) (a : Nat) (b : Byte) : (s.setByte p a b).mem = if a < Config.memorySize then Memory.write p s.mem a b else s.mem := rfl
@[simp] theorem setByte_jumped (p : Config.Params) (s : State) (a : Nat) (b : Byte) : (s.setByte p a b).jumped = s.jumped := rfl
@[simp] theorem setByte_wait (p : Config.Params) (s : State) (a : Nat) (b : Byte) : (s.setByte p a b).wait = s.wait := rfl
@[simp] theorem setByte_status (p : Config.Params) (s : State) (a : Nat) (b : Byte) : (s.setByte p a b).status = s.status := rfl
@[simp] theorem setByte_tone (p : Config.Params) (s : State) (a : Nat) (b : Byte) : (s.setByte p a b).tone = s.tone := rfl
@[simp] theorem setByte_args (p : Config.Params) (s : State) (a : Nat) (b : Byte) : (s.setByte p a b).args = s.args := rfl
@[simp] theorem setByte_inputs (p : Config.Params) (s : State) (a : Nat) (b : Byte) : (s.setByte p a b).inputs = s.inputs := rfl
@[simp] theorem setByte_steps (p : Config.Params) (s : State) (a : Nat) (b : Byte) : (s.setByte p a b).steps = s.steps := rfl
@[simp] theorem reg_setByte (p : Config.Params) (s : State) (a : Nat) (b : Byte) (q : Reg) : (s.setByte p a b).reg q = s.reg q := rfl
@[simp] theorem base_setByte (p : Config.Params) (s : State) (a : Nat) (b : Byte) : (s.setByte p a b).base = s.base := rfl

/-! ### `State.jump` -/

@[simp] theorem jump_v (s : State) (w : Word) : (s.jump w).v = s.v := rfl
@[simp] theorem jump_i (s : State) (w : Word) : (s.jump w).i = s.i := rfl
@[simp] theorem jump_pc (s : State) (w : Word) : (s.jump w).pc = w := rfl
@[simp] theorem jump_dt (s : State) (w : Word) : (s.jump w).dt = s.dt := rfl
@[simp] theorem jump_st (s : State) (w : Word) : (s.jump w).st = s.st := rfl
@[simp] theorem jump_stack (s : State) (w : Word) : (s.jump w).stack = s.stack := rfl
@[simp] theorem jump_sp (s : State) (w : Word) : (s.jump w).sp = s.sp := rfl
@[simp] theorem jump_fb (s : State) (w : Word) : (s.jump w).fb = s.fb := rfl
@[simp] theorem jump_keys (s : State) (w : Word) : (s.jump w).keys = s.keys := rfl
@[simp] theorem jump_mem (s : State) (w : Word) : (s.jump w).mem = s.mem := rfl
@[simp] theorem jump_jumped (s : State) (w : Word) : (s.jump w).jumped = true := rfl
@[simp] theorem jump_wait (s : State) (w : Word) : (s.jump w).wait = s.wait := rfl
@[simp] theorem jump_status (s : State) (w : Word) : (s.jump w).status = s.status := rfl
@[simp] theorem jump_tone (s : State) (w : Word) : (s.jump w).tone = s.tone := rfl
@[simp] theorem jump_args (s : State) (w : Word) : (s.jump w).args = s.args := rfl
@[simp] theorem jump_inputs (s : State) (w : Word) : (s.jump w).inputs = s.inputs := rfl
@[simp] theorem jump_steps (s : State) (w : Word) : (s.jump w).steps = s.steps := rfl
@[simp] theorem reg_jump (s : State) (w : Word) (q : Reg) : (s.jump w).reg q = s.reg q := rfl
@[simp] theorem byte_jump (p : Config.Params) (s : State) (w : Word) (c : Nat) : (s.jump w).byte p c = s.byte p c := rfl
@[simp] theorem base_jump (s : State) (w : Word) : (s.jump w).base = s.base := rfl

/-! ### `State.raise` -/

@[simp] theorem raise_v (s : State) (k : ErrorKind) : (s.raise k).v = s.v := rfl
@[simp] theorem raise_i (s : State) (k : ErrorKind) : (s.raise k).i = s.i := rfl
@[simp] theorem raise_pc (s : State) (k : ErrorKind) : (s.raise k).pc = s.pc := rfl
@[simp] theorem raise_dt (s : State) (k : ErrorKind) : (s.raise k).dt = s.dt := rfl
@[simp] theorem raise_st (s : State) (k : ErrorKind) : (s.raise k).st = s.st := rfl
@[simp] theorem raise_stack (s : State) (k : ErrorKind) : (s.raise k).stack = s.stack := rfl
@[simp] theorem raise_sp (s : State) (k : ErrorKind) : (s.raise k).sp = s.sp := rfl
@[simp] theorem raise_fb (s : State) (k : ErrorKind) : (s.raise k).fb = s.fb := rfl
@[simp] theorem raise_keys (s : State) (k : ErrorKind) : (s.raise k).keys = s.keys := rfl
@[simp] theorem raise_mem (s : State) (k : ErrorKind) : (s.raise k).mem = s.mem := rfl
@[simp] theorem raise_jumped (s : State) (k : ErrorKind) : (s.raise k).jumped = s.jumped := rfl
@[simp] theorem raise_wait (s : State) (k : ErrorKind) : (s.raise k).wait = s.wait := rfl
@[simp] theorem raise_status (s : State) (k : ErrorKind) : (s.raise k).status = .error k s.pc := rfl
@[simp] theorem raise_tone (s : State) (k : ErrorKind) : (s.raise k).tone = s.tone := rfl
@[simp] theorem raise_args (s : State) (k : ErrorKind) : (s.raise k).args = s.args := rfl
@[simp] theorem raise_inputs (s : State) (k : ErrorKind) : (s.raise k).inputs = s.inputs := rfl
@[simp] theorem raise_steps (s : State) (k : ErrorKind) : (s.raise k).steps = s.steps := rfl
@[simp] theorem reg_raise (s : State) (k : ErrorKind) (q : Reg) : (s.raise k).reg q = s.reg q := rfl
@[simp] theorem byte_raise (p : Config.Params) (s : State) (k : ErrorKind) (c : Nat) : (s.raise k).byte p c = s.byte p c := rfl
@[simp] theorem base_raise (s : State) (k : ErrorKind) : (s.raise k).base = s.base := rfl

/-! ### `State.halt` -/

@[simp] theorem halt_v (s : State) : (s.halt).v = s.v := rfl
@[simp] theorem halt_i (s : State) : (s.halt).i = s.i := rfl
@[simp] theorem halt_pc (s : State) : (s.halt).pc = s.pc := rfl
@[simp] theorem halt_dt (s : State) : (s.halt).dt = s.dt := rfl
@[simp] theorem halt_st (s : State) : (s.halt).st = s.st := rfl
@[simp] theorem halt_stack (s : State) : (s.halt).stack = s.stack := rfl
@[simp] theorem halt_sp (s : State) : (s.halt).sp = s.sp := rfl
@[simp] theorem halt_fb (s : State) : (s.halt).fb = s.fb := rfl
@[simp] theorem halt_keys (s : State) : (s.halt).keys = s.keys := rfl
@[simp] theorem halt_mem (s : State) : (s.halt).mem = s.mem := rfl
@[simp] theorem halt_jumped (s : State) : (s.halt).jumped = s.jumped := rfl
@[simp] theorem halt_wait (s : State) : (s.halt).wait = s.wait := rfl
@[simp] theorem halt_status (s : State) : (s.halt).status = .halted := rfl
@[simp] theorem halt_tone (s : State) : (s.halt).tone = s.tone := rfl
@[simp] theorem halt_args (s : State) : (s.halt).args = s.args := rfl
@[simp] theorem halt_inputs (s : State) : (s.halt).inputs = s.inputs := rfl
@[simp] theorem halt_steps (s : State) : (s.halt).steps = s.steps := rfl
@[simp] theorem reg_halt (s : State) (q : Reg) : (s.halt).reg q = s.reg q := rfl
@[simp] theorem byte_halt (p : Config.Params) (s : State) (c : Nat) : (s.halt).byte p c = s.byte p c := rfl
@[simp] theorem base_halt (s : State) : (s.halt).base = s.base := rfl

/-! ### `State.tick` -/

@[simp] theorem tick_v (s : State) : (s.tick).v = s.v := rfl
@[simp] theorem tick_i (s : State) : (s.tick).i = s.i := rfl
@[simp] theorem tick_pc (s : State) : (s.tick).pc = s.pc := rfl
@[simp] theorem tick_dt (s : State) : (s.tick).dt = countDown s.dt := rfl
@[simp] theorem tick_st (s : State) : (s.tick).st = countDown s.st := rfl
@[simp] theorem tick_stack (s : State) : (s.tick).stack = s.stack := rfl
@[simp] theorem tick_sp (s : State) : (s.tick).sp = s.sp := rfl
@[simp] theorem tick_fb (s : State) : (s.tick).fb = s.fb := rfl
@[simp] theorem tick_keys (s : State) : (s.tick).keys = s.keys := rfl
@[simp] theorem tick_mem (s : State) : (s.tick).mem = s.mem := rfl
@[simp] theorem tick_jumped (s : State) : (s.tick).jumped = s.jumped := rfl
@[simp] theorem tick_wait (s : State) : (s.tick).wait = s.wait := rfl
@[simp] theorem tick_status (s : State) : (s.tick).status = s.status := rfl
@[simp] theorem tick_tone (s : State) : (s.tick).tone = (s.st != 0) := rfl
@[simp] theorem tick_args (s : State) : (s.tick).args = s.args := rfl
@[simp] theorem tick_inputs (s : State) : (s.tick).inputs = s.inputs := rfl
@[simp] theorem tick_steps (s : State) : (s.tick).steps = s.steps := rfl
@[simp] theorem reg_tick (s : State) (q : Reg) : (s.tick).reg q = s.reg q := rfl
@[simp] theorem byte_tick (p : Config.Params) (s : State) (c : Nat) : (s.tick).byte p c = s.byte p c := rfl
@[simp] theorem base_tick (s : State) : (s.tick).base = s.base := rfl

/-! ### `State.takeArgs` -/

@[simp] theorem takeArgs_v (s : State) : (s.takeArgs).v = s.v := rfl
@[simp] theorem takeArgs_i (s : State) : (s.takeArgs).i = s.i := rfl
@[simp] theorem takeArgs_pc (s : State) : (s.takeArgs).pc = s.pc := rfl
@[simp] theorem takeArgs_dt (s : State) : (s.takeArgs).dt = s.dt := rfl
@[simp] theorem takeArgs_st (s : State) : (s.takeArgs).st = s.st := rfl
@[simp] theorem takeArgs_stack (s : State) : (s.takeArgs).stack = s.stack := rfl
@[simp] theorem takeArgs_sp (s : State) : (s.takeArgs).sp = s.sp := rfl
@[simp] theorem takeArgs_fb (s : State) : (s.takeArgs).fb = s.fb := rfl
@[simp] theorem takeArgs_keys (s : State) : (s.takeArgs).keys = s.keys := rfl
@[simp] theorem takeArgs_mem (s : State) : (s.takeArgs).mem = s.mem := rfl
@[simp] theorem takeArgs_jumped (s : State) : (s.takeArgs).jumped = s.jumped := rfl
@[simp] theorem takeArgs_wait (s : State) : (s.takeArgs).wait = s.wait := rfl
@[simp] theorem takeArgs_status (s : State) : (s.takeArgs).status = s.status := rfl
@[simp] theorem takeArgs_tone (s : State) : (s.takeArgs).tone = s.tone := rfl
@[simp] theorem takeArgs_args (s : State) : (s.takeArgs).args = s.nextArgs := rfl
@[simp] theorem takeArgs_inputs (s : State) : (s.takeArgs).inputs = s.inputs.tail := rfl
@[simp] theorem takeArgs_steps (s : State) : (s.takeArgs).steps = s.steps + 1 := rfl
@[simp] theorem reg_takeArgs (s : State) (q : Reg) : (s.takeArgs).reg q = s.reg q := rfl
@[simp] theorem byte_takeArgs (p : Config.Params) (s : State) (c : Nat) : (s.takeArgs).byte p c = s.byte p c := rfl
@[simp] theorem base_takeArgs (s : State) : (s.takeArgs).base = s.base := rfl

/-! ### `State.refresh` -/

@[simp] theorem refresh_v (s : State) : (s.refresh).v = s.v := rfl
@[simp] theorem refresh_i (s : State) : (s.refresh).i = s.i := rfl
@[simp] theorem refresh_pc (s : State) : (s.refresh).pc = s.pc := rfl
@[simp] theorem refresh_dt (s : State) : (s.refresh).dt = s.dt := rfl
@[simp] theorem refresh_st (s : State) : (s.refresh).st = s.st := rfl
@[simp] theorem refresh_stack (s : State) : (s.refresh).stack = s.stack := rfl
@[simp] theorem refresh_sp (s : State) : (s.refresh).sp = s.sp := rfl
@[simp] theorem refresh_fb (s : State) : (s.refresh).fb = s.fb := rfl
@[simp] theorem refresh_keys (s : State) : (s.refresh).keys = s.args.keysNext := rfl
@[simp] theorem refresh_mem (s : State) : (s.refresh).mem = s.mem := rfl
@[simp] theorem refresh_jumped (s : State) : (s.refresh).jumped = false := rfl
@[simp] theorem refresh_wait (s : State) : (s.refresh).wait = s.wait := rfl
@[simp] theorem refresh_status (s : State) : (s.refresh).status = s.status := rfl
@[simp] theorem refresh_tone (s : State) : (s.refresh).tone = s.tone := rfl
@[simp] theorem refresh_args (s : State) : (s.refresh).args = s.args := rfl
@[simp] theorem refresh_inputs (s : State) : (s.refresh).inputs = s.inputs := rfl
@[simp] theorem refresh_steps (s : State) : (s.refresh).steps = s.steps := rfl
@[simp] theorem reg_refresh (s : State) (q : Reg) : (s.refresh).reg q = s.reg q := rfl
@[simp] theorem byte_refresh (p : Config.Params) (s : State) (c : Nat) : (s.refresh).byte p c = s.byte p c := rfl
@[simp] theorem base_refresh (s : State) : (s.refresh).base = s.base := rfl

/-! ### `State.supply` -/

@[simp] theorem supply_v (s : State) (a : StepArgs) : (s.supply a).v = s.v := rfl
@[simp] theorem supply_i (s : State) (a : StepArgs) : (s.supply a).i = s.i := rfl
@[simp] theorem supply_pc (s : State) (a : StepArgs) : (s.supply a).pc = s.pc := rfl
@[simp] theorem supply_dt (s : State) (a : StepArgs) : (s.supply a).dt = s.dt := rfl
@[simp] theorem supply_st (s : State) (a : StepArgs) : (s.supply a).st = s.st := rfl
@[simp] theorem supply_stack (s : State) (a : StepArgs) : (s.supply a).stack = s.stack := rfl
@[simp] theorem supply_sp (s : State) (a : StepArgs) : (s.supply a).sp = s.sp := rfl
@[simp] theorem supply_fb (s : State) (a : StepArgs) : (s.supply a).fb = s.fb := rfl
@[simp] theorem supply_keys (s : State) (a : StepArgs) : (s.supply a).keys = s.keys := rfl
@[simp] theorem supply_mem (s : State) (a : StepArgs) : (s.supply a).mem = s.mem := rfl
@[simp] theorem supply_jumped (s : State) (a : StepArgs) : (s.supply a).jumped = s.jumped := rfl
@[simp] theorem supply_wait (s : State) (a : StepArgs) : (s.supply a).wait = s.wait := rfl
@[simp] theorem supply_status (s : State) (a : StepArgs) : (s.supply a).status = s.status := rfl
@[simp] theorem supply_tone (s : State) (a : StepArgs) : (s.supply a).tone = s.tone := rfl
@[simp] theorem supply_args (s : State) (a : StepArgs) : (s.supply a).args = s.args := rfl
@[simp] theorem supply_inputs (s : State) (a : StepArgs) : (s.supply a).inputs = a :: s.inputs := rfl
@[simp] theorem supply_steps (s : State) (a : StepArgs) : (s.supply a).steps = s.steps := rfl
@[simp] theorem reg_supply (s : State) (a : StepArgs) (q : Reg) : (s.supply a).reg q = s.reg q := rfl
@[simp] theorem byte_supply (p : Config.Params) (s : State) (a : StepArgs) (c : Nat) : (s.supply a).byte p c = s.byte p c := rfl
@[simp] theorem base_supply (s : State) (a : StepArgs) : (s.supply a).base = s.base := rfl

/-! ### Register reads -/

@[simp] theorem reg_setReg (s : State) (x r : Reg) (b : Byte) :
    (s.setReg x b).reg r = if r = x then b else s.reg r := by
  have h : (x.toNat = r.toNat) ↔ r = x := by rw [← BitVec.toNat_inj]; exact eq_comm
  simp only [State.reg, setReg_v, Vector.getElem_set, h]

end Sys2Proof.Machine
end

