-- ==== Sys2Proof/Laws/Decode.lean ====
section
/-! SUPPORT. The fields of an assembled word, and a word as its fields (spec/30_encoding.md R61). -/

namespace Sys2Proof

@[simp] theorem fieldClass_wordNNN (c : Nibble) (nnn : Addr12) : fieldClass (wordNNN c nnn) = c := by
  apply BitVec.eq_of_getLsbD_eq
  intro i hi
  have h0 : ¬12 + i < 12 := by omega
  have h1 : 12 + i - 12 = i := by omega
  simp only [fieldClass, wordNNN, BitVec.getLsbD_extractLsb', BitVec.getLsbD_append]
  simp [*]

@[simp] theorem fieldNNN_wordNNN (c : Nibble) (nnn : Addr12) : fieldNNN (wordNNN c nnn) = nnn := by
  apply BitVec.eq_of_getLsbD_eq
  intro i hi
  simp only [fieldNNN, wordNNN, BitVec.getLsbD_extractLsb', BitVec.getLsbD_append]
  simp [*]

@[simp] theorem fieldClass_wordXNN (c : Nibble) (x : Reg) (nn : Byte) : fieldClass (wordXNN c x nn) = c := by
  apply BitVec.eq_of_getLsbD_eq
  intro i hi
  have h0 : ¬12 + i < 8 := by omega
  have h1 : ¬12 + i - 8 < 4 := by omega
  have h2 : 12 + i - 8 - 4 = i := by omega
  simp only [fieldClass, wordXNN, BitVec.getLsbD_extractLsb', BitVec.getLsbD_append]
  simp [*]

@[simp] theorem fieldX_wordXNN (c : Nibble) (x : Reg) (nn : Byte) : fieldX (wordXNN c x nn) = x := by
  apply BitVec.eq_of_getLsbD_eq
  intro i hi
  have h0 : ¬8 + i < 8 := by omega
  have h1 : 8 + i - 8 = i := by omega
  simp only [fieldX, wordXNN, BitVec.getLsbD_extractLsb', BitVec.getLsbD_append]
  simp [*]

@[simp] theorem fieldNN_wordXNN (c : Nibble) (x : Reg) (nn : Byte) : fieldNN (wordXNN c x nn) = nn := by
  apply BitVec.eq_of_getLsbD_eq
  intro i hi
  simp only [fieldNN, wordXNN, BitVec.getLsbD_extractLsb', BitVec.getLsbD_append]
  simp [*]

@[simp] theorem fieldClass_wordXYN (c : Nibble) (x y : Reg) (n : Nibble) : fieldClass (wordXYN c x y n) = c := by
  apply BitVec.eq_of_getLsbD_eq
  intro i hi
  have h0 : ¬12 + i < 8 := by omega
  have h1 : ¬12 + i - 8 < 4 := by omega
  have h2 : 12 + i - 8 - 4 = i := by omega
  simp only [fieldClass, wordXYN, BitVec.getLsbD_extractLsb', BitVec.getLsbD_append]
  simp [*]

@[simp] theorem fieldX_wordXYN (c : Nibble) (x y : Reg) (n : Nibble) : fieldX (wordXYN c x y n) = x := by
  apply BitVec.eq_of_getLsbD_eq
  intro i hi
  have h0 : ¬8 + i < 8 := by omega
  have h1 : 8 + i - 8 = i := by omega
  simp only [fieldX, wordXYN, BitVec.getLsbD_extractLsb', BitVec.getLsbD_append]
  simp [*]

@[simp] theorem fieldY_wordXYN (c : Nibble) (x y : Reg) (n : Nibble) : fieldY (wordXYN c x y n) = y := by
  apply BitVec.eq_of_getLsbD_eq
  intro i hi
  have h0 : 4 + i < 8 := by omega
  have h1 : ¬4 + i < 4 := by omega
  have h2 : 4 + i - 4 = i := by omega
  simp only [fieldY, wordXYN, BitVec.getLsbD_extractLsb', BitVec.getLsbD_append]
  simp [*]

@[simp] theorem fieldN_wordXYN (c : Nibble) (x y : Reg) (n : Nibble) : fieldN (wordXYN c x y n) = n := by
  apply BitVec.eq_of_getLsbD_eq
  intro i hi
  have h0 : i < 8 := by omega
  simp only [fieldN, wordXYN, BitVec.getLsbD_extractLsb', BitVec.getLsbD_append]
  simp [*]

theorem word_eq_NNN (w : Word) : wordNNN (fieldClass w) (fieldNNN w) = w := by
  apply BitVec.eq_of_getLsbD_eq
  intro i hi
  simp only [wordNNN, fieldClass, fieldNNN, BitVec.getLsbD_append, BitVec.getLsbD_extractLsb']
  by_cases h : i < 12
  · simp [h]
  · have : 12 + (i - 12) = i := by omega
    have : i - 12 < 4 := by omega
    simp [*]

theorem word_eq_XNN (w : Word) : wordXNN (fieldClass w) (fieldX w) (fieldNN w) = w := by
  apply BitVec.eq_of_getLsbD_eq
  intro i hi
  simp only [wordXNN, fieldClass, fieldX, fieldNN, BitVec.getLsbD_append, BitVec.getLsbD_extractLsb']
  by_cases h : i < 8
  · simp [h]
  · by_cases h2 : i - 8 < 4
    · have : 8 + (i - 8) = i := by omega
      simp [*]
    · have : 12 + (i - 8 - 4) = i := by omega
      have : i - 8 - 4 < 4 := by omega
      simp [*]

theorem word_eq_XYN (w : Word) : wordXYN (fieldClass w) (fieldX w) (fieldY w) (fieldN w) = w := by
  apply BitVec.eq_of_getLsbD_eq
  intro i hi
  simp only [wordXYN, fieldClass, fieldX, fieldY, fieldN, BitVec.getLsbD_append, BitVec.getLsbD_extractLsb']
  by_cases h : i < 8
  · by_cases h2 : i < 4
    · simp [h, h2]
    · have : 4 + (i - 4) = i := by omega
      have : i - 4 < 4 := by omega
      simp [*]
  · by_cases h2 : i - 8 < 4
    · have : 8 + (i - 8) = i := by omega
      simp [*]
    · have : 12 + (i - 8 - 4) = i := by omega
      have : i - 8 - 4 < 4 := by omega
      simp [*]

/-- A word is its two bytes, the high one first (spec/20_memory.md R47). -/
theorem wordOfBytes_bytes (w : Word) : wordOfBytes (highByte w) (lowByte w) = w := by
  apply BitVec.eq_of_getLsbD_eq
  intro i hi
  simp only [wordOfBytes, highByte, lowByte, BitVec.getLsbD_append, BitVec.getLsbD_extractLsb']
  by_cases h : i < 8
  · simp [h]
  · have : 8 + (i - 8) = i := by omega
    have : i - 8 < 8 := by omega
    simp [*]

/-! ### The decoder, class by class (R63) -/

theorem decode_class0 {w : Word} (h : fieldClass w = 0x0) : decode w = .ok (decodeClass0 w) := by simp [decode, h]

theorem decode_class1 {w : Word} (h : fieldClass w = 0x1) :
    decode w = .ok (.jp (fieldNNN w)) := by simp [decode, h]

theorem decode_class2 {w : Word} (h : fieldClass w = 0x2) :
    decode w = .ok (.call (fieldNNN w)) := by simp [decode, h]

theorem decode_class3 {w : Word} (h : fieldClass w = 0x3) :
    decode w = .ok (.seImm (fieldX w) (fieldNN w)) := by simp [decode, h]

theorem decode_class4 {w : Word} (h : fieldClass w = 0x4) :
    decode w = .ok (.sneImm (fieldX w) (fieldNN w)) := by simp [decode, h]

theorem decode_class5 {w : Word} (h : fieldClass w = 0x5) :
    decode w = if fieldN w = 0 then .ok (.seReg (fieldX w) (fieldY w)) else .error .invalidClass5 := by simp [decode, h]

theorem decode_class6 {w : Word} (h : fieldClass w = 0x6) :
    decode w = .ok (.ldImm (fieldX w) (fieldNN w)) := by simp [decode, h]

theorem decode_class7 {w : Word} (h : fieldClass w = 0x7) :
    decode w = .ok (.addImm (fieldX w) (fieldNN w)) := by simp [decode, h]

theorem decode_class8 {w : Word} (h : fieldClass w = 0x8) :
    decode w = decodeClass8 w := by simp [decode, h]

theorem decode_class9 {w : Word} (h : fieldClass w = 0x9) :
    decode w = if fieldN w = 0 then .ok (.sneReg (fieldX w) (fieldY w)) else .error .invalidClass9 := by simp [decode, h]

theorem decode_classA {w : Word} (h : fieldClass w = 0xA) :
    decode w = .ok (.ldI (fieldNNN w)) := by simp [decode, h]

theorem decode_classB {w : Word} (h : fieldClass w = 0xB) :
    decode w = .ok (.jpV0 (fieldNNN w)) := by simp [decode, h]

theorem decode_classC {w : Word} (h : fieldClass w = 0xC) :
    decode w = .ok (.rnd (fieldX w) (fieldNN w)) := by simp [decode, h]

theorem decode_classD {w : Word} (h : fieldClass w = 0xD) :
    decode w = .ok (.drw (fieldX w) (fieldY w) (fieldN w)) := by simp [decode, h]

theorem decode_classE {w : Word} (h : fieldClass w = 0xE) :
    decode w = decodeClassE w := by simp [decode, h]

theorem decode_classF {w : Word} (h : fieldClass w = 0xF) :
    decode w = decodeClassF w := by simp [decode, h]

/-- SYS is what class 0 decodes to, but for three words (R64). -/
theorem decodeClass0_sys (nnn : Addr12) (h0 : nnn ≠ 0x000) (h1 : nnn ≠ 0x0E0) (h2 : nnn ≠ 0x0EE) :
    decodeClass0 (wordNNN 0x0 nnn) = .sys nnn := by
  have e : ∀ k : Addr12, nnn ≠ k → wordNNN 0x0 nnn ≠ wordNNN 0x0 k := fun k hk e => hk (by simpa using congrArg fieldNNN e)
  have e0 : wordNNN 0x0 nnn ≠ 0x0000#16 := e 0x000 h0
  have e1 : wordNNN 0x0 nnn ≠ 0x00E0#16 := e 0x0E0 h1
  have e2 : wordNNN 0x0 nnn ≠ 0x00EE#16 := e 0x0EE h2
  unfold decodeClass0
  rw [if_neg e0, if_neg e1, if_neg e2, fieldNNN_wordNNN]

/-- Every word is in one of the sixteen classes. -/
theorem fieldClass_cases (w : Word) :
    fieldClass w ∈ [0x0#4, 0x1#4, 0x2#4, 0x3#4, 0x4#4, 0x5#4, 0x6#4, 0x7#4, 0x8#4, 0x9#4, 0xA#4, 0xB#4, 0xC#4, 0xD#4, 0xE#4, 0xF#4] := by
  generalize fieldClass w = c
  revert c; decide

end Sys2Proof
end

