-- ==== Sys2Proof/Laws/Memory.lean ====
section
/-! SUPPORT. The laws of memory: a read gives the last byte written, a write leaves every other byte alone, the canonical form is
kept, and what the block operations do in range and out of it (spec/20_memory.md R42 to R44, R50). -/

namespace Sys2Proof.Machine

open Sys2Proof Sys2Proof.Safety

variable {p : Config.Params}

theorem lookup_filter_self (m : Memory) (a : Nat) : Memory.lookup (m.filter (fun c => c.1 != a)) a = none := by
  induction m with
  | nil => rfl
  | cons c m ih =>
    by_cases h : c.1 = a
    · simpa [List.filter_cons, h] using ih
    · simpa [List.filter_cons, h, Memory.lookup, Ne.symm h] using ih

theorem lookup_filter_ne (m : Memory) {a b : Nat} (hab : b ≠ a) :
    Memory.lookup (m.filter (fun c => c.1 != a)) b = Memory.lookup m b := by
  induction m with
  | nil => rfl
  | cons c m ih =>
    by_cases h : c.1 = a
    · simpa [h, Memory.lookup, hab] using ih
    · simp [h, Memory.lookup, ih]

theorem lookup_insert_self (m : Memory) (a : Nat) (v : Byte) (h : Memory.lookup m a = none) :
    Memory.lookup (Memory.insert m a v) a = some v := by
  induction m with
  | nil => simp [Memory.insert, Memory.lookup]
  | cons c m ih =>
    obtain ⟨b, u⟩ := c
    have hb : a ≠ b := by intro e; simp [Memory.lookup, e] at h
    by_cases hlt : a < b
    · simp [Memory.insert, Memory.lookup, hlt]
    · simpa [Memory.insert, Memory.lookup, hlt, hb] using ih (by simpa [Memory.lookup, hb] using h)

theorem lookup_insert_ne (m : Memory) {a b : Nat} (v : Byte) (hab : b ≠ a) :
    Memory.lookup (Memory.insert m a v) b = Memory.lookup m b := by
  induction m with
  | nil => simp [Memory.insert, Memory.lookup, hab]
  | cons c m ih =>
    by_cases hlt : a < c.1
    · simp [Memory.insert, Memory.lookup, hlt, hab]
    · simp [Memory.insert, Memory.lookup, hlt, ih]

/-- R50: a read gives the byte last written. -/
theorem read_write_self (m : Memory) (a : Nat) (v : Byte) : Memory.read p (Memory.write p m a v) a = v := by
  unfold Memory.read Memory.write
  split
  · simp [lookup_filter_self, *]
  · simp [lookup_insert_self _ _ _ (lookup_filter_self m a)]

/-- A write leaves every other byte alone. -/
theorem read_write_ne (m : Memory) {a b : Nat} (v : Byte) (hab : b ≠ a) :
    Memory.read p (Memory.write p m a v) b = Memory.read p m b := by
  unfold Memory.read Memory.write
  split
  · rw [lookup_filter_ne m hab]
  · rw [lookup_insert_ne _ v hab, lookup_filter_ne m hab]

theorem wf_filter (m : Memory) (a : Nat) (h : Memory.wf p m = true) :
    Memory.wf p (m.filter (fun c => c.1 != a)) = true := by
  induction m with
  | nil => rfl
  | cons c m ih =>
    obtain ⟨b, u⟩ := c
    simp only [Memory.wf, Bool.and_eq_true] at h
    rw [List.filter_cons]
    split
    · simp only [Memory.wf, Bool.and_eq_true]
      refine ⟨⟨h.1.1, ?_⟩, ih h.2⟩
      have hall := List.all_eq_true.mp h.1.2
      exact List.all_eq_true.mpr fun c hc => hall c (List.mem_filter.mp hc).1
    · exact ih h.2

theorem all_above_insert (m : Memory) (a b : Nat) (v : Byte) (hm : m.all (fun c => decide (b < c.1)) = true) (hab : b < a) :
    (Memory.insert m a v).all (fun c => decide (b < c.1)) = true := by
  induction m with
  | nil => simp [Memory.insert, hab]
  | cons c m ih =>
    simp only [List.all_cons, Bool.and_eq_true] at hm
    unfold Memory.insert
    split
    · simp only [List.all_cons, hm, hab, decide_true, Bool.and_self]
    · simp only [List.all_cons, hm.1, ih hm.2, Bool.and_self]

theorem wf_insert (m : Memory) (a : Nat) (v : Byte) (ha : a < Config.memorySize) (hv : v ≠ resetByte p a)
    (hm : Memory.wf p m = true) (hn : ∀ c ∈ m, c.1 ≠ a) : Memory.wf p (Memory.insert m a v) = true := by
  induction m with
  | nil => simp [Memory.insert, Memory.wf, ha, hv]
  | cons c m ih =>
    obtain ⟨b, u⟩ := c
    have hm' := hm
    simp only [Memory.wf, Bool.and_eq_true] at hm
    have hab : b ≠ a := hn (b, u) (List.mem_cons_self ..)
    unfold Memory.insert
    split
    next hlt =>
      have hall : ((b, u) :: m).all (fun c => decide (a < c.1)) = true := by
        refine List.all_eq_true.mpr fun c hc => ?_
        rcases List.mem_cons.mp hc with rfl | hc
        · simpa using hlt
        · have := List.all_eq_true.mp hm.1.2 c hc
          simp only [decide_eq_true_eq] at this ⊢
          omega
      rw [Memory.wf, hall, hm']
      simp [ha, hv]
    next hlt =>
      simp only [Memory.wf, Bool.and_eq_true]
      exact ⟨⟨hm.1.1, all_above_insert m a b v hm.1.2 (by omega)⟩,
        ih hm.2 fun c hc => hn c (List.mem_cons_of_mem _ hc)⟩

/-- A write keeps the canonical form. -/
theorem wf_write (m : Memory) (a : Nat) (v : Byte) (ha : a < Config.memorySize) (hm : Memory.wf p m = true) :
    Memory.wf p (Memory.write p m a v) = true := by
  unfold Memory.write
  split
  · exact wf_filter m a hm
  · exact wf_insert _ a v ha ‹_› (wf_filter m a hm) fun c hc => by simpa using (List.mem_filter.mp hc).2

/-! ### The operations on a state -/

theorem byte_setByte (s : State) (a c : Nat) (v : Byte) :
    (s.setByte p a v).byte p c = if c = a ∧ a < 0x1000 then v else s.byte p c := by
  simp only [State.byte, setByte_mem]
  by_cases ha : a < Config.memorySize
  · by_cases hc : c = a
    · subst hc; rw [if_pos ha, read_write_self, if_pos ⟨rfl, ha⟩]
    · rw [if_pos ha, read_write_ne _ _ hc, if_neg (by tauto)]
  · rw [if_neg ha, if_neg (by simp only [Config.memorySize] at ha; tauto)]

theorem wf_setByte (s : State) (a : Nat) (v : Byte) (h : Memory.wf p s.mem = true) :
    Memory.wf p (s.setByte p a v).mem = true := by
  simp only [setByte_mem]
  split
  · exact wf_write _ _ _ ‹_› h
  · exact h

theorem memRead_ok (s : State) {a : Nat} (h : a ≤ 0xFFF) : s.memRead p a = .ok (s.byte p a) := if_neg (by omega)

theorem memWrite_ok (s : State) {a : Nat} (hp : p.protectReserved = false ∨ 0x200 ≤ a) (v : Byte) (h : a ≤ 0xFFF) :
    s.memWrite p a v = .ok (s.setByte p a v) := by
  unfold State.memWrite
  rw [if_neg (by omega), if_neg (by rcases hp with hp | hp <;> simp [hp])]

/-- A block read in range gives the bytes in order. -/
theorem loadBytes_ok (s : State) (a n : Nat) (h : a + n ≤ 0x1000) :
    s.loadBytes p a n = .ok ((List.range n).map fun k => s.byte p (a + k)) := by
  induction n generalizing a with
  | zero => rfl
  | succ n ih =>
    rw [State.loadBytes, memRead_ok s (by omega), ih (a + 1) (by omega), List.range_succ_eq_map]
    simp [Function.comp_def, Nat.add_assoc, Nat.add_comm 1]

/-- A block write in range, and above the reserved region where that is protected, puts the bytes in order. -/
theorem storeBytes_ok (s : State) (a : Nat) (hp : p.protectReserved = false ∨ 0x200 ≤ a) (vs : List Byte) (h : a + vs.length ≤ 0x1000) :
    s.storeBytes p a vs = .ok (s.placeBytes p a vs) := by
  induction vs generalizing s a with
  | nil => rfl
  | cons v vs ih =>
    simp only [List.length_cons] at h
    rw [State.storeBytes, memWrite_ok s hp v (by omega), State.placeBytes]
    exact ih _ _ (hp.imp_right (by omega)) (by omega)

/-- Bytes put in memory change memory alone. -/
theorem placeBytes_eq (s : State) (a : Nat) (vs : List Byte) :
    s.placeBytes p a vs = { s with mem := (s.placeBytes p a vs).mem } := by
  induction vs generalizing s a with
  | nil => rfl
  | cons v vs ih => rw [State.placeBytes, ih]; rfl

/-- What memory reads as after bytes have been put in it. -/
theorem byte_placeBytes (s : State) (a : Nat) (vs : List Byte) (c : Nat) :
    (s.placeBytes p a vs).byte p c = if a ≤ c ∧ c < a + vs.length ∧ c < 0x1000 then vs.getD (c - a) 0 else s.byte p c := by
  induction vs generalizing s a with
  | nil => rw [if_neg (by simp only [List.length_nil]; omega)]; rfl
  | cons v vs ih =>
    rw [State.placeBytes, ih, byte_setByte]
    simp only [List.length_cons]
    by_cases h1 : a + 1 ≤ c
    · obtain ⟨d, rfl⟩ : ∃ d, c = a + 1 + d := ⟨c - (a + 1), by omega⟩
      have e1 : a + 1 + d - (a + 1) = d := by omega
      have e2 : a + 1 + d - a = d + 1 := by omega
      simp only [e1, e2, List.getD_cons_succ]
      by_cases h2 : a + 1 + d < a + 1 + vs.length ∧ a + 1 + d < 0x1000
      · rw [if_pos ⟨h1, h2⟩, if_pos (by omega)]
      · rw [if_neg (by tauto), if_neg (by omega), if_neg (by omega)]
    · rw [if_neg (by tauto)]
      by_cases h2 : c = a
      · subst h2
        by_cases h3 : c < 0x1000
        · rw [if_pos ⟨rfl, h3⟩, if_pos (by omega)]; simp
        · rw [if_neg (by tauto), if_neg (by omega)]
      · rw [if_neg (by tauto), if_neg (by omega)]

theorem wf_placeBytes (s : State) (a : Nat) (vs : List Byte) (h : Memory.wf p s.mem = true) :
    Memory.wf p (s.placeBytes p a vs).mem = true := by
  induction vs generalizing s a with
  | nil => exact h
  | cons v vs ih => exact ih _ _ (wf_setByte s a v h)

theorem rangeBeyond_false {base count : Nat} (h : base + count ≤ 0x1000) : rangeBeyond base count = false := by
  simp only [rangeBeyond, decide_eq_false_iff_not]; omega

theorem base_lt (s : State) : s.base < 0x1000 := by
  have h : s.base ≤ 0xFFF := by
    simp only [State.base, BitVec.toNat_and]; exact Nat.and_le_right
  omega

theorem rangeBeyond_iff (s : State) (count : Nat) : rangeBeyond s.base count = true ↔ s.base + count > 0x1000 := by
  have := base_lt s
  simp only [rangeBeyond, decide_eq_true_eq]; omega

/-- R44: a store through `I`, in range and out of it, that meets no protected address. -/
theorem storeAtI_eq (s : State) (hp : p.protectReserved = false ∨ 0x200 ≤ s.base) (vs : List Byte) :
    s.storeAtI p vs =
      if s.base + vs.length ≤ 0x1000 then .ok (s.placeBytes p s.base vs) else .error .outOfBounds := by
  unfold State.storeAtI
  by_cases h : s.base + vs.length ≤ 0x1000
  · rw [if_pos h, rangeBeyond_false h, storeBytes_ok _ _ hp _ h]; rfl
  · rw [if_neg h, (rangeBeyond_iff s vs.length).mpr (by omega)]; rfl

/-- R43, R102: a store through `I` that starts in a protected reserved region writes nothing. -/
theorem storeAtI_protected (hp : p.protectReserved = true) (s : State) (v : Byte) (vs : List Byte)
    (h : s.base < Config.loadAddress) : s.storeAtI p (v :: vs) = .error .outOfBounds := by
  have hw : s.memWrite p s.base v = .error .outOfBounds := by
    unfold State.memWrite
    split
    · rfl
    · rw [if_pos ⟨hp, h⟩]
  unfold State.storeAtI
  split
  · rfl
  · rw [State.storeBytes, hw]

/-- R44: a read through `I`, in range and out of it. -/
theorem loadAtI_eq (s : State) (n : Nat) :
    s.loadAtI p n =
      if s.base + n ≤ 0x1000 then .ok ((List.range n).map fun k => s.byte p (s.base + k)) else .error .outOfBounds := by
  unfold State.loadAtI
  by_cases h : s.base + n ≤ 0x1000
  · rw [if_pos h, rangeBeyond_false h, loadBytes_ok _ _ _ h]; rfl
  · rw [if_neg h, (rangeBeyond_iff s n).mpr (by omega)]; rfl

end Sys2Proof.Machine
end

