-- ==== Sys2Proof/Laws/Ops.lean ====
section
/-! SUPPORT. What the shared operations of the meanings can do, said once for each. -/

namespace Sys2Proof.Machine

open Sys2Proof Sys2Proof.Safety

/-- R141: a push, on a stack that is not full and on a full one. -/
theorem push_of_ne {p : Config.Params} (s : State) (w : Word) (h : s.sp ≠ p.stackCapacity) :
    s.push p w = some { s with stack := s.stack.set s.sp w, sp := s.sp + 1 } := if_neg h

theorem push_of_full {p : Config.Params} (s : State) (w : Word) (h : s.sp = p.stackCapacity) : s.push p w = none := if_pos h

/-- R142: a pop, on a stack that is not empty and on an empty one. -/
theorem pop_of_succ (s : State) (k : Nat) (h : s.sp = k + 1) : s.pop = some (s.entry k, { s with sp := k }) := by
  simp [State.pop, h]

theorem pop_of_empty (s : State) (h : s.sp = 0) : s.pop = none := if_pos h

/-- A push succeeds or finds the stack full. -/
theorem push_cases (p : Config.Params) (s : State) (w : Word) :
    (s.sp ≠ p.stackCapacity ∧ s.push p w = some { s with stack := s.stack.set s.sp w, sp := s.sp + 1 }) ∨
    (s.sp = p.stackCapacity ∧ s.push p w = none) := by
  by_cases h : s.sp = p.stackCapacity
  · exact .inr ⟨h, push_of_full s w h⟩
  · exact .inl ⟨h, push_of_ne s w h⟩

/-- A pop succeeds or finds the stack empty. -/
theorem pop_cases (s : State) :
    (∃ k, s.sp = k + 1 ∧ s.pop = some (s.entry k, { s with sp := k })) ∨ (s.sp = 0 ∧ s.pop = none) := by
  cases h : s.sp with
  | zero => exact .inr ⟨rfl, pop_of_empty s h⟩
  | succ k => exact .inl ⟨k, rfl, pop_of_succ s k h⟩

/-- Every entry `S[k]`, after one inside the stack has been written. -/
theorem entry_set (s : State) (n : Nat) (w : Word) (hn : n < s.stack.length) (k : Nat) :
    State.entry { s with stack := s.stack.set n w } k = if k = n then w else s.entry k := by
  simp only [State.entry, List.getD_eq_getElem?_getD, List.getElem?_set]
  by_cases h : k = n
  · subst h; simp [hn]
  · rw [if_neg (Ne.symm h), if_neg h]

/-- R400: every entry is 0 after reset, and memory reads as R45 says. -/
theorem entry_resetWith (p : Config.Params) (k : Nat) : (State.resetWith p).entry k = 0 := by
  simp only [State.entry, State.resetWith, List.getD_eq_getElem?_getD, List.getElem?_replicate]
  split <;> rfl

theorem byte_resetWith (p : Config.Params) (a : Nat) : (State.resetWith p).byte p a = resetByte p a := rfl

/-- The stack of this hardware holds 16 entries (D1). -/
@[simp] theorem hardware_stackCapacity : hardware.stackCapacity = 16 := rfl

/-- Every register after a result and a flag outcome: VF is the flag, whichever register the result went to (R119). -/
theorem reg_setRegFlag (s : State) (x r : Reg) (b : Byte) (f : Bool) :
    (s.setRegFlag x b f).reg r = if r = vf then flagByte f else if r = x then b else s.reg r := by
  simp [State.setRegFlag]

/-- A result and a flag outcome change the registers alone. -/
theorem setRegFlag_eq (s : State) (x : Reg) (b : Byte) (f : Bool) :
    s.setRegFlag x b f = { s with v := (s.setRegFlag x b f).v } := rfl

/-- Consecutive register writes change the registers alone. -/
theorem setRegsFrom_eq (s : State) (r : Nat) (bs : List Byte) :
    s.setRegsFrom r bs = { s with v := (s.setRegsFrom r bs).v } := by
  induction bs generalizing s r with
  | nil => rfl
  | cons b bs ih => rw [State.setRegsFrom, ih]; rfl

/-- Every register after consecutive register writes. -/
theorem reg_setRegsFrom (s : State) (r : Nat) (bs : List Byte) (h : r + bs.length ≤ 16) (q : Reg) :
    (s.setRegsFrom r bs).reg q = if r ≤ q.toNat ∧ q.toNat < r + bs.length then bs.getD (q.toNat - r) 0 else s.reg q := by
  induction bs generalizing s r with
  | nil => rw [if_neg (by simp only [List.length_nil]; omega)]; rfl
  | cons b bs ih =>
    simp only [List.length_cons] at h ⊢
    rw [State.setRegsFrom, ih _ _ (by omega), reg_setReg]
    have hq : q = BitVec.ofNat 4 r ↔ q.toNat = r := by
      rw [← BitVec.toNat_inj, BitVec.toNat_ofNat, Nat.mod_eq_of_lt (by omega)]
    by_cases h1 : r + 1 ≤ q.toNat
    · obtain ⟨d, hd⟩ : ∃ d, q.toNat = r + 1 + d := ⟨q.toNat - (r + 1), by omega⟩
      have e1 : r + 1 + d - (r + 1) = d := by omega
      have e2 : r + 1 + d - r = d + 1 := by omega
      simp only [hq, hd, e1, e2, List.getD_cons_succ]
      by_cases h2 : r + 1 + d < r + 1 + bs.length
      · rw [if_pos ⟨by omega, h2⟩, if_pos (by omega)]
      · rw [if_neg (by omega), if_neg (by omega), if_neg (by omega)]
    · rw [if_neg (by omega)]
      by_cases h2 : q.toNat = r
      · rw [if_pos (hq.mpr h2), if_pos (by omega), h2]; simp
      · rw [if_neg (fun e => h2 (hq.mp e)), if_neg (by omega)]

/-- The registers a block store writes out, in order. -/
theorem regsUpTo_length (s : State) (x : Reg) : (s.regsUpTo x).length = x.toNat + 1 := by simp [State.regsUpTo]

theorem regsUpTo_getD (s : State) (x k : Reg) (h : k.toNat ≤ x.toNat) : (s.regsUpTo x).getD k.toNat 0 = s.reg k := by
  rw [State.regsUpTo, List.getD_eq_getElem?_getD, List.getElem?_map, List.getElem?_range (by omega)]
  simp

/-- `I` after a block transfer (R164, R165, D16). -/
theorem i_blockAdvance (p : Config.Params) (s : State) (x : Reg) :
    (s.blockAdvance p x).i.toNat =
      if p.ldstIncrementsI = true then (s.i.toNat + x.toNat + 1) % 65536 else s.i.toNat := by
  unfold State.blockAdvance; split <;> simp

/-- `I` is unchanged after a block transfer on this hardware (D16). -/
@[simp] theorem blockAdvance_hardware (s : State) (x : Reg) : s.blockAdvance hardware x = s := rfl

/-- SHR and SHL read `V[X]` on this hardware (D6). -/
@[simp] theorem shiftOperand_hardware (s : State) (x y : Reg) : s.shiftOperand hardware x y = s.reg x := rfl

/-- 5xy0 skips on equality on this hardware (D9). -/
@[simp] theorem seRegCondition_hardware (a b : Byte) : seRegCondition hardware a b = (a == b) := rfl

/-- A skip either jumps to `pc + 4` or changes nothing. -/
theorem skipIf_cases (s : State) (c : Bool) :
    (c = true ∧ s.skipIf c = s.jump (s.pc + 4)) ∨ (c = false ∧ s.skipIf c = s) := by
  cases c
  · exact .inr ⟨rfl, rfl⟩
  · exact .inl ⟨rfl, rfl⟩

/-- The register a newly pressed key is found by: `leastKey` gives the least set bit. -/
theorem leastKey_eq_some (m : Word) (k : Nat) (hk : k < 16) (h : m.getLsbD k = true)
    (hmin : ∀ j, j < k → m.getLsbD j = false) : leastKey m = some k := by
  have hl : [0, 1, 2, 3, 4, 5, 6, 7, 8, 9, 10, 11, 12, 13, 14, 15] = List.range 16 := by decide
  rw [leastKey, hl, List.find?_range_eq_some]
  exact ⟨h, by simpa using hk, fun j hj => by simp [hmin j hj]⟩

theorem leastKey_eq_none (m : Word) (h : ∀ k, k < 16 → m.getLsbD k = false) : leastKey m = none := by
  have hl : [0, 1, 2, 3, 4, 5, 6, 7, 8, 9, 10, 11, 12, 13, 14, 15] = List.range 16 := by decide
  rw [leastKey, hl, List.find?_eq_none]
  intro k hk
  simp [h k (by simpa using hk)]

end Sys2Proof.Machine
end

