-- ==== Sys2Proof/Laws/Exec.lean ====
section
/-! SUPPORT. Everything the instructions that can raise an error can do, said once for each: the effect on its condition, or
the error with nothing else written (spec/40_step_and_dispatch.md R102). -/

namespace Sys2Proof.Machine

open Sys2Proof Sys2Proof.Safety

/-- R9: `exec` is the parametric phase 4 at this hardware's parameters. -/
theorem exec_eq_execWith (i : Instr) (s : State) : exec i s = execWith hardware i s := by cases i <;> rfl

/-- R141. -/
theorem call_cases {nnn : Addr12} {s t : State} (h : exec (.call nnn) s = .next t) :
    (s.sp ≠ 16 ∧ t = State.jump { s with stack := s.stack.set s.sp s.pc, sp := s.sp + 1 } (addr16 nnn)) ∨
    (s.sp = 16 ∧ t = s.raise .stackOverflow) := by
  rcases push_cases hardware s s.pc with ⟨hs, e⟩ | ⟨hs, e⟩ <;> simp only [exec, execCall, execCallWith, e] at h <;> cases h
  · exact .inl ⟨hs, rfl⟩
  · exact .inr ⟨hs, rfl⟩

/-- R142. -/
theorem ret_cases {s t : State} (h : exec .ret s = .next t) :
    (∃ k, s.sp = k + 1 ∧ t = State.jump { s with sp := k } (s.entry k + 2)) ∨
    (s.sp = 0 ∧ t = s.raise .stackUnderflow) := by
  rcases pop_cases s with ⟨k, hs, e⟩ | ⟨hs, e⟩ <;> simp only [exec, execRet, e] at h <;> cases h
  · exact .inl ⟨k, hs, rfl⟩
  · exact .inr ⟨hs, rfl⟩

/-- R163. -/
theorem ldB_cases {x : Reg} {s t : State} (h : exec (.ldB x) s = .next t) :
    (s.base + 3 ≤ 0x1000 ∧ t = s.placeBytes hardware s.base (decimalDigits (s.reg x))) ∨
    (s.base + 3 > 0x1000 ∧ t = s.raise .outOfBounds) := by
  have hl : (decimalDigits (s.reg x)).length = 3 := rfl
  by_cases hs : s.base + 3 ≤ 0x1000
  · simp only [exec, execLdB, execLdBWith, storeAtI_eq (p := hardware) _ (.inl rfl), hl, if_pos hs] at h; cases h; exact .inl ⟨hs, rfl⟩
  · simp only [exec, execLdB, execLdBWith, storeAtI_eq (p := hardware) _ (.inl rfl), hl, if_neg hs] at h; cases h; exact .inr ⟨by omega, rfl⟩

/-- R164. -/
theorem storeRegs_cases {x : Reg} {s t : State} (h : exec (.storeRegs x) s = .next t) :
    (s.base + (x.toNat + 1) ≤ 0x1000 ∧ t = s.placeBytes hardware s.base (s.regsUpTo x)) ∨
    (s.base + (x.toNat + 1) > 0x1000 ∧ t = s.raise .outOfBounds) := by
  by_cases hs : s.base + (x.toNat + 1) ≤ 0x1000
  · simp only [exec, execStoreRegs, execStoreRegsWith, blockAdvance_hardware, storeAtI_eq (p := hardware) _ (.inl rfl), regsUpTo_length, if_pos hs] at h; cases h; exact .inl ⟨hs, rfl⟩
  · simp only [exec, execStoreRegs, execStoreRegsWith, storeAtI_eq (p := hardware) _ (.inl rfl), regsUpTo_length, if_neg hs] at h; cases h; exact .inr ⟨by omega, rfl⟩

/-- R165. -/
theorem loadRegs_cases {x : Reg} {s t : State} (h : exec (.loadRegs x) s = .next t) :
    (s.base + (x.toNat + 1) ≤ 0x1000 ∧
      t = s.setRegsFrom 0 ((List.range (x.toNat + 1)).map fun k => s.byte hardware (s.base + k))) ∨
    (s.base + (x.toNat + 1) > 0x1000 ∧ t = s.raise .outOfBounds) := by
  by_cases hs : s.base + (x.toNat + 1) ≤ 0x1000
  · simp only [exec, execLoadRegs, execLoadRegsWith, blockAdvance_hardware, loadAtI_eq, if_pos hs] at h; cases h; exact .inl ⟨hs, rfl⟩
  · simp only [exec, execLoadRegs, execLoadRegsWith, loadAtI_eq, if_neg hs] at h; cases h; exact .inr ⟨by omega, rfl⟩

/-- R181: what the framebuffer and the collision are after the blit is `blitRows`. -/
theorem drw_cases {x y : Reg} {n : Nibble} {s t : State} (h : exec (.drw x y n) s = .next t) :
    (s.base + n.toNat ≤ 0x1000 ∧ ∃ d : Drawing,
      d = blitRows ((s.reg x).toNat % 64) ((s.reg y).toNat % 32) 0 ((List.range n.toNat).map fun k => s.byte hardware (s.base + k))
        (s.fb, false) ∧
      t = State.setReg { s with fb := d.1 } vf (flagByte d.2)) ∨
    (s.base + n.toNat > 0x1000 ∧ t = s.raise .outOfBounds) := by
  by_cases hs : s.base + n.toNat ≤ 0x1000
  · simp only [exec, execDrw, execDrwWith, loadAtI_eq, if_pos hs] at h; cases h; exact .inl ⟨hs, _, rfl, rfl⟩
  · simp only [exec, execDrw, execDrwWith, loadAtI_eq, if_neg hs] at h; cases h; exact .inr ⟨by omega, rfl⟩

end Sys2Proof.Machine
end

