-- ==== Sys2Proof/Laws/Display.lean ====
section
/-! SUPPORT. What one byte and one row of the blit do to every pixel and to the collision (spec/44_display.md R181). -/

namespace Sys2Proof.Machine

open Sys2Proof Sys2Proof.Safety

/-- The pixel of column `c` is lit by the mask `m` put on byte `j` of a row. -/
def MaskLit (j : Fin 8) (m : Byte) (c : Fin 64) : Prop := c.val / 8 = j.val ∧ m.getLsbD (7 - c.val % 8) = true

/-- The pixel of column `c` is lit by a sprite row at origin column `x0`: bit `b` from the left lands at `(x0 + b) mod 64`. -/
def RowLit (x0 : Nat) (sprite : Byte) (c : Fin 64) : Prop :=
  ∃ b, b < 8 ∧ c.val = (x0 + b) % 64 ∧ sprite.getLsbD (7 - b) = true

/-- One byte of the blit turns the lit pixels over. -/
theorem pixel_blitByte_lit (row : Fin 32) (j : Fin 8) (m : Byte) (d : Drawing) (c : Fin 64) (h : MaskLit j m c) :
    Framebuffer.pixel (blitByte row j m d).1 c row = !Framebuffer.pixel d.1 c row := by
  obtain ⟨h1, h2⟩ := h
  simp [Framebuffer.pixel, blitByte, h1, h2]

/-- One byte of the blit leaves every other pixel alone. -/
theorem pixel_blitByte_dark (row r : Fin 32) (j : Fin 8) (m : Byte) (d : Drawing) (c : Fin 64)
    (h : ¬(r = row ∧ MaskLit j m c)) :
    Framebuffer.pixel (blitByte row j m d).1 c r = Framebuffer.pixel d.1 c r := by
  by_cases hr : r = row
  · subst hr
    by_cases hj : c.val / 8 = j.val
    · have hm : m.getLsbD (7 - c.val % 8) = false := by simpa [MaskLit, hj] using h
      simp [Framebuffer.pixel, blitByte, hj, hm]
    · have hj' : j.val ≠ c.val / 8 := Ne.symm hj
      simp [Framebuffer.pixel, blitByte, hj']
  · have hr' : row.val ≠ r.val := fun e => hr (Fin.ext e.symm)
    simp [Framebuffer.pixel, blitByte, hr']

/-- The collision after one byte of the blit. -/
theorem hit_blitByte (row : Fin 32) (j : Fin 8) (m : Byte) (d : Drawing) :
    (blitByte row j m d).2 = true ↔ d.2 = true ∨ ∃ c, MaskLit j m c ∧ Framebuffer.pixel d.1 c row = true := by
  have key : ((d.1[row.val])[j.val] &&& m ≠ 0#8) ↔ ∃ c, MaskLit j m c ∧ Framebuffer.pixel d.1 c row = true := by
    constructor
    · intro h
      obtain ⟨i, hi, hb⟩ : ∃ i, i < 8 ∧ ((d.1[row.val])[j.val] &&& m).getLsbD i = true := by
        by_contra hn
        refine h (BitVec.eq_of_getLsbD_eq fun i hi => ?_)
        by_contra hb
        exact hn ⟨i, hi, by simpa using hb⟩
      have hb' : ((d.1[row.val])[j.val]).getLsbD i = true ∧ m.getLsbD i = true := by
        simpa only [BitVec.getLsbD_and, Bool.and_eq_true] using hb
      refine ⟨⟨8 * j.val + (7 - i), by omega⟩, ⟨by simp only []; omega, ?_⟩, ?_⟩
      · have : 7 - (8 * j.val + (7 - i)) % 8 = i := by omega
        simpa only [this] using hb'.2
      · have e1 : 7 - (8 * j.val + (7 - i)) % 8 = i := by omega
        have e2 : (8 * j.val + (7 - i)) / 8 = j.val := by omega
        simpa only [Framebuffer.pixel, e1, e2] using hb'.1
    · rintro ⟨c, ⟨h1, h2⟩, h3⟩ h
      have hb := congrArg (fun b => b.getLsbD (7 - c.val % 8)) h
      simp only [Framebuffer.pixel, h1] at h3
      simp only [BitVec.getLsbD_and, h2, h3] at hb
      simp at hb
  simp only [blitByte, Bool.or_eq_true, bne_iff_ne]
  exact or_congr_right key

/-- The two bytes of a sprite row light its pixels between them (R181: the byte split "computes exactly this"). -/
theorem maskLit_iff_rowLit (x0 : Nat) (hx : x0 < 64) (sprite : Byte) (c : Fin 64) :
    (MaskLit (Fin.ofNat 8 (x0 / 8)) (blitHi sprite (x0 % 8)) c ∨
      MaskLit (Fin.ofNat 8 (x0 / 8 + 1)) (blitLo sprite (x0 % 8)) c) ↔ RowLit x0 sprite c := by
  have hc := c.isLt
  simp only [MaskLit, RowLit, blitHi, blitLo, Fin.val_ofNat, BitVec.getLsbD_ushiftRight, BitVec.getLsbD_ofNat,
    Nat.testBit_shiftLeft, Bool.and_eq_true, decide_eq_true_eq]
  constructor
  · rintro (⟨h1, h2⟩ | ⟨h1, h2, h3, h4⟩)
    · have hlt := BitVec.lt_of_getLsbD h2
      refine ⟨c.val % 8 - x0 % 8, by omega, by omega, ?_⟩
      have : 7 - (c.val % 8 - x0 % 8) = x0 % 8 + (7 - c.val % 8) := by omega
      rwa [this]
    · refine ⟨8 - x0 % 8 + c.val % 8, by omega, by omega, ?_⟩
      have : 7 - (8 - x0 % 8 + c.val % 8) = 7 - c.val % 8 - (8 - x0 % 8) := by omega
      rw [this]; exact h4
  · rintro ⟨b, hb, h1, h2⟩
    by_cases hs : x0 % 8 + b < 8
    · refine .inl ⟨by omega, ?_⟩
      have : x0 % 8 + (7 - c.val % 8) = 7 - b := by omega
      rwa [this]
    · refine .inr ⟨by omega, by omega, by omega, ?_⟩
      have : 7 - c.val % 8 - (8 - x0 % 8) = 7 - b := by omega
      rw [this]; exact h2

end Sys2Proof.Machine
end

