-- ==== Sys2Proof/Laws/PerInstr.lean ====
section
/-! SUPPORT. What holds of every instruction as syntax, constructor by constructor. -/

namespace Sys2Proof.Laws.ClassNibble

open Sys2Proof

/-- The opcode class of an instruction (spec/30_encoding.md R63). -/
def classOf : Instr → Nibble
  | .halt => 0x0
  | .sys _ => 0x0
  | .cls => 0x0
  | .ret => 0x0
  | .jp _ => 0x1
  | .call _ => 0x2
  | .seImm _ _ => 0x3
  | .sneImm _ _ => 0x4
  | .seReg _ _ => 0x5
  | .ldImm _ _ => 0x6
  | .addImm _ _ => 0x7
  | .ldReg _ _ => 0x8
  | .orReg _ _ => 0x8
  | .andReg _ _ => 0x8
  | .xorReg _ _ => 0x8
  | .addReg _ _ => 0x8
  | .subReg _ _ => 0x8
  | .shr _ _ => 0x8
  | .subnReg _ _ => 0x8
  | .shl _ _ => 0x8
  | .sneReg _ _ => 0x9
  | .ldI _ => 0xA
  | .jpV0 _ => 0xB
  | .rnd _ _ => 0xC
  | .drw _ _ _ => 0xD
  | .skp _ => 0xE
  | .sknp _ => 0xE
  | .ldVxDT _ => 0xF
  | .ldVxK _ => 0xF
  | .ldDTVx _ => 0xF
  | .ldSTVx _ => 0xF
  | .addI _ => 0xF
  | .ldF _ => 0xF
  | .ldB _ => 0xF
  | .storeRegs _ => 0xF
  | .loadRegs _ => 0xF

/-- The top four bits of an instruction's word are its class, the "primary dispatch key" of R61. -/
def Statement (i : Instr) : Prop := fieldClass (encode i) = classOf i

theorem halt : Statement .halt := rfl
theorem sys (nnn : Addr12) : Statement (.sys nnn) := fieldClass_wordNNN _ _
theorem cls : Statement .cls := rfl
theorem ret : Statement .ret := rfl
theorem jp (nnn : Addr12) : Statement (.jp nnn) := fieldClass_wordNNN _ _
theorem call (nnn : Addr12) : Statement (.call nnn) := fieldClass_wordNNN _ _
theorem seImm (x : Reg) (nn : Byte) : Statement (.seImm x nn) := fieldClass_wordXNN _ _ _
theorem sneImm (x : Reg) (nn : Byte) : Statement (.sneImm x nn) := fieldClass_wordXNN _ _ _
theorem seReg (x y : Reg) : Statement (.seReg x y) := fieldClass_wordXYN _ _ _ _
theorem ldImm (x : Reg) (nn : Byte) : Statement (.ldImm x nn) := fieldClass_wordXNN _ _ _
theorem addImm (x : Reg) (nn : Byte) : Statement (.addImm x nn) := fieldClass_wordXNN _ _ _
theorem ldReg (x y : Reg) : Statement (.ldReg x y) := fieldClass_wordXYN _ _ _ _
theorem orReg (x y : Reg) : Statement (.orReg x y) := fieldClass_wordXYN _ _ _ _
theorem andReg (x y : Reg) : Statement (.andReg x y) := fieldClass_wordXYN _ _ _ _
theorem xorReg (x y : Reg) : Statement (.xorReg x y) := fieldClass_wordXYN _ _ _ _
theorem addReg (x y : Reg) : Statement (.addReg x y) := fieldClass_wordXYN _ _ _ _
theorem subReg (x y : Reg) : Statement (.subReg x y) := fieldClass_wordXYN _ _ _ _
theorem shr (x y : Reg) : Statement (.shr x y) := fieldClass_wordXYN _ _ _ _
theorem subnReg (x y : Reg) : Statement (.subnReg x y) := fieldClass_wordXYN _ _ _ _
theorem shl (x y : Reg) : Statement (.shl x y) := fieldClass_wordXYN _ _ _ _
theorem sneReg (x y : Reg) : Statement (.sneReg x y) := fieldClass_wordXYN _ _ _ _
theorem ldI (nnn : Addr12) : Statement (.ldI nnn) := fieldClass_wordNNN _ _
theorem jpV0 (nnn : Addr12) : Statement (.jpV0 nnn) := fieldClass_wordNNN _ _
theorem rnd (x : Reg) (nn : Byte) : Statement (.rnd x nn) := fieldClass_wordXNN _ _ _
theorem drw (x y : Reg) (n : Nibble) : Statement (.drw x y n) := fieldClass_wordXYN _ _ _ _
theorem skp (x : Reg) : Statement (.skp x) := fieldClass_wordXNN _ _ _
theorem sknp (x : Reg) : Statement (.sknp x) := fieldClass_wordXNN _ _ _
theorem ldVxDT (x : Reg) : Statement (.ldVxDT x) := fieldClass_wordXNN _ _ _
theorem ldVxK (x : Reg) : Statement (.ldVxK x) := fieldClass_wordXNN _ _ _
theorem ldDTVx (x : Reg) : Statement (.ldDTVx x) := fieldClass_wordXNN _ _ _
theorem ldSTVx (x : Reg) : Statement (.ldSTVx x) := fieldClass_wordXNN _ _ _
theorem addI (x : Reg) : Statement (.addI x) := fieldClass_wordXNN _ _ _
theorem ldF (x : Reg) : Statement (.ldF x) := fieldClass_wordXNN _ _ _
theorem ldB (x : Reg) : Statement (.ldB x) := fieldClass_wordXNN _ _ _
theorem storeRegs (x : Reg) : Statement (.storeRegs x) := fieldClass_wordXNN _ _ _
theorem loadRegs (x : Reg) : Statement (.loadRegs x) := fieldClass_wordXNN _ _ _

end Sys2Proof.Laws.ClassNibble
end

