-- ==== Sys2Proof/Laws/Step.lean ====
section
/-! SUPPORT. What the phases of a step can do, said once for each (spec/40_step_and_dispatch.md R100 to R107). -/

namespace Sys2Proof.Machine

open Sys2Proof Sys2Proof.Safety

@[simp] theorem fetch_tick (p : Config.Params) (s : State) : s.tick.fetch p = s.fetch p := rfl
@[simp] theorem fetch_takeArgs (p : Config.Params) (s : State) : s.takeArgs.fetch p = s.fetch p := rfl

/-- R101 on this hardware: the fetch from its two checks. -/
theorem fetch_eq (s : State) :
    s.fetch hardware =
      if s.pc.toNat % 2 = 1 then .error .misalignedFetch
      else if s.pc.toNat + 1 > 0xFFF then .error .outOfBounds
      else .ok (wordOfBytes (s.byte hardware s.pc.toNat) (s.byte hardware (s.pc.toNat + 1))) := by
  unfold State.fetch
  by_cases h1 : s.pc.toNat % 2 = 1
  · rw [if_pos h1, if_pos ⟨h1, rfl⟩]
  · rw [if_neg h1, if_neg (fun h => h1 h.1)]
    by_cases h2 : s.pc.toNat + 1 > 0xFFF
    · rw [if_pos h2, if_pos h2]
    · rw [if_neg h2, if_neg h2, memRead_ok s (by omega), memRead_ok s (by omega)]

/-- A fetch that gives a word was from an even address inside memory. -/
theorem pc_of_fetch_ok {s : State} {w : Word} (h : s.fetch hardware = .ok w) :
    s.pc.toNat % 2 = 0 ∧ s.pc.toNat ≤ 0xFFE ∧ w = wordOfBytes (s.byte hardware s.pc.toNat) (s.byte hardware (s.pc.toNat + 1)) := by
  rw [fetch_eq] at h
  split at h
  · cases h
  · split at h
    · cases h
    · cases h; exact ⟨by omega, by omega, rfl⟩

/-- R9: `step` is the parametric step at this hardware's parameters. -/
theorem step_eq_stepWith (s : State) : step s = stepWith hardware s :=
  congrArg (s.runStep hardware ·) (funext fun i => funext fun t => exec_eq_execWith i t)

/-- The four ends of a step (R104, phases 5 to 7). -/
theorem endStep_cases (s : State) :
    (s.status ≠ .running ∧ s.endStep = s) ∨
    (s.status = .running ∧ s.jumped = false ∧ s.wait = .none ∧ s.pc.toNat + 2 > 0xFFF ∧ s.endStep = s.raise .outOfBounds) ∨
    (s.status = .running ∧ s.jumped = false ∧ s.wait = .none ∧ s.pc.toNat + 2 ≤ 0xFFF ∧
      s.endStep = { s with pc := s.pc + 2 }.refresh) ∨
    (s.status = .running ∧ (s.jumped = true ∨ s.wait ≠ .none) ∧ s.endStep = s.refresh) := by
  by_cases h1 : s.status = .running
  · by_cases h2 : s.jumped = false ∧ s.wait = .none
    · by_cases h3 : s.pc.toNat + 2 > 0xFFF
      · exact .inr (.inl ⟨h1, h2.1, h2.2, h3, by
          unfold State.endStep; rw [if_neg (not_not.mpr h1), if_pos h2, if_pos h3]⟩)
      · exact .inr (.inr (.inl ⟨h1, h2.1, h2.2, by omega, by
          unfold State.endStep; rw [if_neg (not_not.mpr h1), if_pos h2, if_neg h3]⟩))
    · refine .inr (.inr (.inr ⟨h1, ?_, by
        unfold State.endStep; rw [if_neg (not_not.mpr h1), if_neg h2]⟩))
      cases hj : s.jumped
      · exact .inr fun h => h2 ⟨hj, h⟩
      · exact .inl rfl
  · exact .inl ⟨h1, by unfold State.endStep; rw [if_pos h1]⟩

/-- Everything one step can do (R100): a stopped machine answers, a waiting machine waits or ends its wait, the fetch or the
decoder stops the machine, or the decoded instruction runs and the step ends. -/
theorem step_cases {s t : State} (h : step s = .next t) :
    (s.status ≠ .running ∧ t = { s with tone := false }) ∨
    (s.status = .running ∧ ∃ x seen, s.wait = .waiting x seen ∧ t = (s.takeArgs.tick.waitStep x seen).endStep) ∨
    (s.status = .running ∧ s.wait = .none ∧ ∃ k, s.fetch hardware = .error k ∧ t = s.takeArgs.tick.raise k) ∨
    (s.status = .running ∧ s.wait = .none ∧ ∃ w r, s.fetch hardware = .ok w ∧ decode w = .error r ∧
      t = s.takeArgs.tick.raise .invalidInstruction) ∨
    (s.status = .running ∧ s.wait = .none ∧ ∃ w i u, s.fetch hardware = .ok w ∧ decode w = .ok i ∧
      exec i s.takeArgs.tick = .next u ∧ t = u.endStep) := by
  unfold step State.runStep at h
  by_cases hs : s.status = .running
  · rw [if_neg (not_not.mpr hs)] at h
    unfold State.runPhases at h
    cases hw : s.wait with
    | waiting x seen =>
      simp only [tick_wait, takeArgs_wait, hw] at h
      cases h
      exact .inr (.inl ⟨hs, x, seen, rfl, rfl⟩)
    | none =>
      simp only [tick_wait, takeArgs_wait, hw] at h
      unfold State.runInstr at h
      simp only [fetch_tick, fetch_takeArgs] at h
      cases hf : s.fetch hardware with
      | error k =>
        simp only [hf] at h
        cases h
        exact .inr (.inr (.inl ⟨hs, rfl, k, rfl, rfl⟩))
      | ok w =>
        simp only [hf] at h
        cases hd : decode w with
        | error r =>
          simp only [hd] at h
          cases h
          exact .inr (.inr (.inr (.inl ⟨hs, rfl, w, r, rfl, hd, rfl⟩)))
        | ok i =>
          simp only [hd] at h
          cases he : exec i s.takeArgs.tick with
          | next u =>
            simp only [he] at h
            cases h
            exact .inr (.inr (.inr (.inr ⟨hs, rfl, w, i, u, rfl, hd, he, rfl⟩)))
          | fault f => simp only [he] at h; cases h
          | refused r => simp only [he] at h; cases h
  · rw [if_pos hs] at h
    cases h
    exact .inl ⟨hs, rfl⟩

/-- The two outcomes of a waiting step (R213). -/
theorem waitStep_cases (s : State) (x : Reg) (seen : Word) :
    (leastKey (freshKeys s.keys seen) = none ∧ s.waitStep x seen = { s with wait := .waiting x s.keys }) ∨
    ∃ k, leastKey (freshKeys s.keys seen) = some k ∧
      s.waitStep x seen = { s.setReg x (BitVec.ofNat 8 k) with wait := .none } := by
  unfold State.waitStep
  cases h : leastKey (freshKeys s.keys seen) with
  | none => exact .inl ⟨rfl, rfl⟩
  | some k => exact .inr ⟨k, rfl, rfl⟩

end Sys2Proof.Machine
end

