-- ==== Sys2Proof/Tests/Slice0.lean ====
section
/-! SUPPORT. Tests of the model on words and vectors of the spec (spec/95_test_vectors.md), an ill-formed term for each check of
`Instr.wf`, and for each statement with hypotheses a state that meets them. -/

namespace Sys2Proof.Tests

open Sys2Proof Sys2Proof.Machine Sys2Proof.Safety

/-! ### Helpers -/

/-- Reset with one word where the next step fetches, and both arguments of that step 0. -/
def start (w : Nat) : State := (State.reset.withFetchWord 16 w).supply { keysNext := 0, rnd := 0 }

/-- The same with the word at another address. -/
def startAt (pc : Word) (w : Nat) : State :=
  (State.withFetchWord { State.reset with pc := pc } 16 w).supply { keysNext := 0, rnd := 0 }

/-- One field of the state a step leads to. -/
def after {α : Type} (s : State) (f : State → α) : Option α :=
  match step s with
  | .next t => some (f t)
  | .fault _ => none
  | .refused _ => none

/-- One step. -/
def next (s : State) : State :=
  match step s with
  | .next t => t
  | .fault _ => s
  | .refused _ => s

/-- Registers set from a list of pairs. -/
def withRegs (s : State) (l : List (Reg × Byte)) : State := l.foldl (fun s p => s.setReg p.1 p.2) s

/-- Two registers after a step. -/
def two (x y : Reg) (s : State) : Byte × Byte := (s.reg x, s.reg y)

def isNext (o : Host.Outcome State Fault Refusal) : Bool :=
  match o with
  | .next _ => true
  | .fault _ => false
  | .refused _ => false

theorem next_of_isNext {o : Host.Outcome State Fault Refusal} (h : isNext o = true) : ∃ t, o = .next t := by
  cases o with
  | next t => exact ⟨t, rfl⟩
  | fault f => cases h
  | refused r => cases h

/-! ### Well-formedness (R64): each check refuses its word -/

theorem test_wf_refuses_sys_000 : (Instr.sys 0x000).wf = false := by decide
theorem test_wf_refuses_sys_0E0 : (Instr.sys 0x0E0).wf = false := by decide
theorem test_wf_refuses_sys_0EE : (Instr.sys 0x0EE).wf = false := by decide
theorem test_wf_accepts_sys : (Instr.sys 0x001).wf = true ∧ (Instr.sys 0xFFF).wf = true := by decide

/-! ### Decoding: a word of every row of R66, written out from its pattern -/

theorem test_decode_class0_to_2 :
    decode 0x0000 = .ok .halt ∧ decode 0x0123 = .ok (.sys 0x123) ∧ decode 0x00E0 = .ok .cls ∧ decode 0x00EE = .ok .ret ∧
      decode 0x1204 = .ok (.jp 0x204) ∧ decode 0x2210 = .ok (.call 0x210) := by decide

theorem test_decode_class3_to_7 :
    decode 0x3F05 = .ok (.seImm 15 0x05) ∧ decode 0x4103 = .ok (.sneImm 1 0x03) ∧ decode 0x5120 = .ok (.seReg 1 2) ∧
      decode 0x6105 = .ok (.ldImm 1 0x05) ∧ decode 0x7303 = .ok (.addImm 3 0x03) := by decide

theorem test_decode_class8 :
    decode 0x8120 = .ok (.ldReg 1 2) ∧ decode 0x8121 = .ok (.orReg 1 2) ∧ decode 0x8122 = .ok (.andReg 1 2) ∧
      decode 0x8123 = .ok (.xorReg 1 2) ∧ decode 0x8124 = .ok (.addReg 1 2) ∧ decode 0x8125 = .ok (.subReg 1 2) ∧
      decode 0x8306 = .ok (.shr 3 0) ∧ decode 0x8127 = .ok (.subnReg 1 2) ∧ decode 0x830E = .ok (.shl 3 0) := by decide

theorem test_decode_class9_to_D :
    decode 0x9120 = .ok (.sneReg 1 2) ∧ decode 0xA300 = .ok (.ldI 0x300) ∧ decode 0xB3A4 = .ok (.jpV0 0x3A4) ∧
      decode 0xC10F = .ok (.rnd 1 0x0F) ∧ decode 0xD125 = .ok (.drw 1 2 5) := by decide

theorem test_decode_classE_and_F :
    decode 0xE59E = .ok (.skp 5) ∧ decode 0xE5A1 = .ok (.sknp 5) ∧ decode 0xF307 = .ok (.ldVxDT 3) ∧
      decode 0xF50A = .ok (.ldVxK 5) ∧ decode 0xF015 = .ok (.ldDTVx 0) ∧ decode 0xF118 = .ok (.ldSTVx 1) ∧
      decode 0xF21E = .ok (.addI 2) ∧ decode 0xF029 = .ok (.ldF 0) ∧ decode 0xF033 = .ok (.ldB 0) ∧
      decode 0xF255 = .ok (.storeRegs 2) ∧ decode 0xF265 = .ok (.loadRegs 2) := by decide

/-- The decode table of spec/95, its invalid words. -/
theorem test_decode_invalid :
    decode 0x5121 = .error .invalidClass5 ∧ decode 0x812F = .error .invalidClass8 ∧ decode 0x8128 = .error .invalidClass8 ∧
      decode 0x912F = .error .invalidClass9 ∧ decode 0xE100 = .error .invalidClassE ∧ decode 0xF166 = .error .invalidClassF ∧
      decode 0xFFFF = .error .invalidClassF ∧ decodeBytes [0x61] = .error .truncated := by decide

theorem test_decodeTableWord : decodeTableWord 16 0x6105 = some (.ldImm 1 5) ∧ decodeTableWord 16 0x5121 = none := by decide

/-! ### Single steps, from the vectors of spec/95 -/

/-- AL1 and R104. -/
theorem test_ldImm : after (start 0x6105) (fun t => (t.reg 1, t.pc)) = some (0x05, 0x202) := by decide
/-- AL2. -/
theorem test_addImm_wraps : after (withRegs (start 0x71FF) [(1, 0x01), (15, 7)]) (two 1 15) = some (0x00, 7) := by decide
/-- AL3. -/
theorem test_ldReg : after (withRegs (start 0x8120) [(2, 0x7A)]) (two 1 2) = some (0x7A, 0x7A) := by decide
/-- AL4. -/
theorem test_or : after (withRegs (start 0x8121) [(1, 0xF0), (2, 0x0F), (15, 9)]) (two 1 15) = some (0xFF, 9) := by decide
/-- AL5. -/
theorem test_and : after (withRegs (start 0x8122) [(1, 0xF0), (2, 0x3C)]) (two 1 2) = some (0x30, 0x3C) := by decide
/-- AL6. -/
theorem test_xor : after (withRegs (start 0x8123) [(1, 0xF0), (2, 0x3C)]) (two 1 2) = some (0xCC, 0x3C) := by decide
/-- AL9, AL23: no carry at 255; with X = 15 the flag wins. -/
theorem test_add_no_carry : after (withRegs (start 0x8124) [(1, 0x80), (2, 0x7F)]) (two 1 15) = some (0xFF, 0) := by decide
theorem test_add_into_vf : after (withRegs (start 0x8F14) [(15, 0xFF), (1, 0x01)]) (two 15 1) = some (1, 0x01) := by decide
/-- AL11, AL12. -/
theorem test_sub_borrow : after (withRegs (start 0x8125) [(1, 0x00), (2, 0x01)]) (two 1 15) = some (0xFF, 1) := by decide
theorem test_sub_equal : after (withRegs (start 0x8125) [(1, 0x05), (2, 0x05)]) (two 1 15) = some (0x00, 0) := by decide
/-- AL15, AL17. -/
theorem test_subn_borrow : after (withRegs (start 0x8127) [(1, 0x05), (2, 0x03)]) (two 1 15) = some (0xFE, 1) := by decide
theorem test_subn_no_borrow : after (withRegs (start 0x8127) [(1, 0x03), (2, 0x05)]) (two 1 15) = some (0x02, 0) := by decide
/-- AL20, AL26. -/
theorem test_shr_ignores_y : after (withRegs (start 0x8126) [(1, 0x00), (2, 0xFF)]) (two 1 15) = some (0x00, 0) := by decide
theorem test_shr_vf : after (withRegs (start 0x8F16) [(15, 0x02)]) (two 15 1) = some (0, 0) := by decide
/-- AL21, AL22. -/
theorem test_shl_out : after (withRegs (start 0x812E) [(1, 0x80)]) (two 1 15) = some (0x00, 1) := by decide
theorem test_shl_no_out : after (withRegs (start 0x812E) [(1, 0x7F), (15, 1)]) (two 1 15) = some (0xFE, 0) := by decide
/-- AL27: `rnd` = 0xA7. -/
theorem test_rnd :
    after ((State.reset.withFetchWord 16 0xC10F).supply { keysNext := 0, rnd := 0xA7 }) (two 1 15) = some (0x07, 0) := by decide

/-- ST2, ST10: HALT keeps `pc`, and the latch is not replaced. -/
theorem test_halt :
    after ((State.reset.withFetchWord 16 0x0000).supply { keysNext := 1, rnd := 0 }) (fun t => (t.status, t.pc, t.keys)) =
      some (.halted, 0x200, 0) := by decide
/-- ST1, ST9. -/
theorem test_sys : after (start 0x0123) (fun t => (t.status, t.pc)) = some (.running, 0x202) := by decide
/-- CF1. -/
theorem test_jp : after (startAt 0x208 0x1204) (·.pc) = some 0x204 := by decide
/-- CF3. -/
theorem test_call : after (startAt 0x204 0x2210) (fun t => (t.pc, t.entry 0, t.sp)) = some (0x210, 0x204, 1) := by decide
/-- CF5's last step: the 17th nested call. -/
theorem test_call_overflow :
    after { startAt 0x220 0x2222 with sp := 16 } (fun t => (t.status, t.sp, t.pc)) =
      some (.error .stackOverflow 0x220, 16, 0x220) := by decide
/-- CF4, CF6. -/
theorem test_ret :
    after { startAt 0x212 0x00EE with sp := 1, stack := State.reset.stack.set 0 0x204 } (fun t => (t.pc, t.entry 0, t.sp)) =
      some (0x206, 0x204, 0) := by decide
theorem test_ret_underflow : after (start 0x00EE) (·.status) = some (.error .stackUnderflow 0x200) := by decide
/-- CF8, CF9. -/
theorem test_seImm_taken : after (withRegs (start 0x3005) [(0, 5)]) (·.pc) = some 0x204 := by decide
theorem test_seImm_not : after (withRegs (start 0x3005) [(0, 4)]) (·.pc) = some 0x202 := by decide
/-- CF10, R144. -/
theorem test_sneImm_not : after (withRegs (start 0x4103) [(1, 3)]) (·.pc) = some 0x202 := by decide
theorem test_sneImm_taken : after (withRegs (start 0x4103) [(1, 2)]) (·.pc) = some 0x204 := by decide
/-- CF11, CF12. -/
theorem test_seReg_taken : after (withRegs (start 0x5120) [(1, 7), (2, 7)]) (·.pc) = some 0x204 := by decide
theorem test_seReg_not : after (withRegs (start 0x5120) [(1, 7), (2, 8)]) (·.pc) = some 0x202 := by decide
/-- CF13, CF14. -/
theorem test_sneReg_taken : after (withRegs (start 0x9120) [(1, 7), (2, 8)]) (·.pc) = some 0x204 := by decide
theorem test_sneReg_same : after (start 0x9330) (·.pc) = some 0x202 := by decide
/-- CF16, CF17. -/
theorem test_jpV0 : after (withRegs (start 0xB300) [(0, 4)]) (·.pc) = some 0x304 := by decide
theorem test_jpV0_not_masked : after (withRegs (start 0xBFFF) [(0, 0xFF)]) (·.pc) = some 0x10FE := by decide

/-- ME1. -/
theorem test_ldI : after { start 0xA300 with i := 0xFFFF } (·.i) = some 0x0300 := by decide
/-- ME3, ME4. -/
theorem test_addI : after (withRegs { start 0xF11E with i := 0x0FFF } [(1, 1)]) (fun t => (t.i, t.reg 15)) = some (0x1000, 0) := by
  decide
theorem test_addI_wraps : after (withRegs { start 0xF11E with i := 0xFFFF } [(1, 1)]) (·.i) = some 0x0000 := by decide
/-- ME6. -/
theorem test_ldF : after (withRegs (start 0xF029) [(0, 0x1A)]) (·.i) = some 0x0032 := by decide
/-- ME11 and ME10. -/
theorem test_ldB :
    after (withRegs { start 0xF033 with i := 0x1300 } [(0, 0xFE)]) (fun t => [t.byte hardware 0x300, t.byte hardware 0x301, t.byte hardware 0x302]) =
      some [2, 5, 4] := by decide
theorem test_ldB_beyond :
    after { start 0xF033 with i := 0xFFE } (fun t => (t.status, t.mem == (start 0xF033).mem)) =
      some (.error .outOfBounds 0x200, true) := by decide
/-- ME14, ME18. -/
theorem test_storeRegs_top :
    after (withRegs { start 0xF155 with i := 0xFFE } [(0, 8), (1, 9)]) (fun t => (t.byte hardware 0xFFE, t.byte hardware 0xFFF, t.i)) =
      some (8, 9, 0xFFE) := by decide
theorem test_storeRegs_reserved : after (withRegs (start 0xF055) [(0, 0xAA)]) (·.byte hardware 0) = some 0xAA := by decide
/-- ME15 (with glyph 1's bytes) and ME16. -/
theorem test_loadRegs :
    after { start 0xF265 with i := 5 } (fun t => [t.reg 0, t.reg 1, t.reg 2, t.reg 3]) = some [0x20, 0x60, 0x20, 0] := by decide
theorem test_loadRegs_beyond :
    after (withRegs { start 0xFF65 with i := 0xFF1 } [(0, 3)]) (fun t => (t.status, t.reg 0)) =
      some (.error .outOfBounds 0x200, 3) := by decide

/-- R180. -/
theorem test_cls :
    after { start 0x00E0 with fb := State.reset.fb.set 3 (Vector.replicate 8 0xFF) } (fun t => t.fb == State.reset.fb) =
      some true := by decide
/-- DR2: wrapping at the corner (63, 31). -/
theorem test_drw_corner :
    after (withRegs { ((start 0xD122).setByte hardware 0x300 0xFF).setByte hardware 0x301 0xFF with i := 0x300 } [(1, 63), (2, 31)])
      (fun t => [t.fbByte 31 7, t.fbByte 31 0, t.fbByte 0 7, t.fbByte 0 0, t.reg 15]) = some [0x01, 0xFE, 0x01, 0xFE, 0] := by
  decide
/-- DR6: a collision. -/
theorem test_drw_collision :
    after (withRegs { (start 0xD121).setByte hardware 0x300 0xFF with
        i := 0x300, fb := State.reset.fb.set 0 ((Vector.replicate 8 0).set 0 0xFF) } [(1, 4)])
      (fun t => [t.fbByte 0 0, t.fbByte 0 1, t.reg 15]) = some [0xF0, 0xF0, 1] := by decide

/-- TM1. -/
theorem test_ldVxDT : after { start 0xF307 with dt := 0x3C } (fun t => (t.reg 3, t.dt)) = some (0x3B, 0x3B) := by decide
/-- TM3. -/
theorem test_ldDTVx : after (withRegs (start 0xF015) [(0, 3)]) (·.dt) = some 3 := by decide
/-- TM4, TM5: the tone bit is of the old ST. -/
theorem test_ldSTVx : after (withRegs (start 0xF118) [(1, 2)]) (fun t => (t.st, t.tone)) = some (2, false) := by decide
theorem test_tone : after { start 0x6000 with st := 1 } (fun t => (t.st, t.tone)) = some (0, true) := by decide

/-- IN1, IN3. -/
theorem test_skp : after (withRegs { start 0xE59E with keys := 0x0010 } [(5, 4)]) (·.pc) = some 0x204 := by decide
theorem test_skp_low_nibble : after (withRegs { start 0xE59E with keys := 0x0020 } [(5, 0x15)]) (·.pc) = some 0x204 := by decide
/-- IN2, IN4. -/
theorem test_sknp_held : after (withRegs { start 0xE5A1 with keys := 0x0010 } [(5, 4)]) (·.pc) = some 0x202 := by decide
theorem test_sknp_free : after (start 0xE5A1) (·.pc) = some 0x204 := by decide
/-- IN5, steps 2 and 5. -/
theorem test_ldVxK :
    after { startAt 0x202 0xF30A with keys := 1 } (fun t => (t.wait, t.pc)) = some (.waiting 3 1, 0x202) := by decide
theorem test_wait_ends_lowest :
    after { startAt 0x202 0xF30A with wait := .waiting 3 0, keys := 6 } (fun t => (t.reg 3, t.wait, t.pc)) =
      some (1, .none, 0x204) := by decide
/-- IN5, step 3: a key held since the entry does not end the wait. -/
theorem test_wait_held :
    after { startAt 0x202 0xF30A with wait := .waiting 3 1, keys := 1, dt := 5 } (fun t => (t.wait, t.pc, t.dt)) =
      some (.waiting 3 1, 0x202, 4) := by decide

/-! ### The step engine -/

/-- ST3. -/
theorem test_invalid_word :
    after { start 0x5121 with dt := 2 } (fun t => (t.status, t.pc, t.dt)) =
      some (.error .invalidInstruction 0x200, 0x200, 1) := by decide
/-- ST4's second step. -/
theorem test_advance_beyond :
    after (startAt 0xFFE 0x6107) (fun t => (t.reg 1, t.status, t.pc)) = some (7, .error .outOfBounds 0xFFE, 0xFFE) := by decide
/-- ST5's and ST6's last steps. -/
theorem test_fetch_beyond : after { start 0 with pc := 0x10FE } (·.status) = some (.error .outOfBounds 0x10FE) := by decide
theorem test_fetch_odd : after { start 0 with pc := 0x301 } (·.status) = some (.error .misalignedFetch 0x301) := by decide
/-- D29: at 0xFFF the alignment check comes first. -/
theorem test_fetch_odd_top : after { start 0 with pc := 0xFFF } (·.status) = some (.error .misalignedFetch 0xFFF) := by decide
/-- ST7: with `ODD_PC_POLICY = fetch` a fetch at 0xFFF is out of bounds. -/
theorem test_fetch_policy :
    State.fetch { hardware with oddPcPolicy := .fetch } { start 0 with pc := 0xFFF } = .error .outOfBounds := by decide
/-- ST8. -/
theorem test_stopped :
    after { start 0x6105 with dt := 5, tone := true, status := .error .outOfBounds 0 } (fun t => (t.dt, t.pc, t.output)) =
      some (5, 0x200, .error .outOfBounds 0, false) := by decide
/-- ST9. -/
theorem test_latch :
    after ((State.reset.withFetchWord 16 0x6000).supply { keysNext := 0x8001, rnd := 0 }) (·.keys) = some 0x8001 := by decide
/-- W1's image loaded, and its first step. -/
theorem test_load :
    (match State.load [0x61, 0x05, 0x62, 0x03, 0x81, 0x24] State.reset with
      | .next t => after t (fun t => (t.reg 1, t.pc))
      | .fault _ => none
      | .refused _ => none) = some (5, 0x202) := by decide

/-! ### Witnesses: the hypotheses of the statements are met, clause by clause -/

theorem witness_OpcodeMapDecodes :
    (0x001#12 ≠ 0x000 ∧ 0x001#12 ≠ 0x0E0 ∧ 0x001#12 ≠ 0x0EE) ∧ (0xFFF#12 ≠ 0x000 ∧ 0xFFF#12 ≠ 0x0E0 ∧ 0xFFF#12 ≠ 0x0EE) := by
  decide
theorem witness_DecodeOfEncode : (Instr.sys 0x001).wf = true ∧ (Instr.drw 15 15 15).wf = true := by decide
theorem witness_EncodeOfDecode : decode 0x00E1 = .ok (.sys 0x0E1) := by decide
/-- The two clauses on the flag, at their boundary: a sum of 256 and one of 255. -/
theorem witness_AddSetsCarry :
    (255 : Byte).toNat + (1 : Byte).toNat > 255 ∧ ¬(255 : Byte).toNat + (0 : Byte).toNat > 255 ∧ (14 : Reg) ≠ vf := by decide
theorem witness_SubtractSetsBorrow : (1 : Byte).toNat > (0 : Byte).toNat ∧ ¬(5 : Byte).toNat > (5 : Byte).toNat := by decide
theorem witness_ShiftsSetBitOut :
    (1 : Byte).toNat % 2 = 1 ∧ ¬(254 : Byte).toNat % 2 = 1 ∧ (128 : Byte).toNat ≥ 128 ∧ ¬(127 : Byte).toNat ≥ 128 := by decide
/-- The conditions of the skips, met and not met at reset. -/
theorem witness_SkipsOnImmediate : State.reset.reg 0 = 0 ∧ State.reset.reg 0 ≠ 1 := by decide
theorem witness_SkipsOnRegisters :
    State.reset.reg 1 = State.reset.reg 2 ∧ (State.reset.setReg 1 7).reg 1 ≠ (State.reset.setReg 1 7).reg 2 := by decide
theorem witness_SkipsOnKey :
    (0x8000 : Word).toNat / 2 ^ ((0xFF : Byte).toNat % 16) % 2 = 1 ∧ (0x8000 : Word).toNat / 2 ^ ((0x0E : Byte).toNat % 16) % 2 = 0 := by
  decide
theorem witness_HaltStopsOnItsWord :
    State.reset.status = .running ∧ State.reset.wait = .none ∧ State.reset.fetch hardware = .ok 0x0000 := by decide
theorem witness_SysOnlyAdvances :
    (start 0x0123).status = .running ∧ (start 0x0123).wait = .none ∧ (start 0x0123).jumped = false ∧
      (start 0x0123).fetch hardware = .ok (0x0#4 ++ 0x123#12) ∧ (start 0x0123).pc ≠ 0xFFE := by decide
theorem witness_SysOnlyAdvances_top :
    (startAt 0xFFE 0x0123).status = .running ∧ (startAt 0xFFE 0x0123).wait = .none ∧ (startAt 0xFFE 0x0123).jumped = false ∧
      (startAt 0xFFE 0x0123).fetch hardware = .ok (0x0#4 ++ 0x123#12) ∧ (startAt 0xFFE 0x0123).pc = 0xFFE := by decide
theorem witness_CallPushesOrOverflows :
    StackFits hardware { State.reset with sp := 15 } ∧ StackFits hardware { State.reset with sp := 16 } := by decide
theorem witness_RetPopsOrUnderflows :
    StackFits hardware { State.reset with sp := 16 } ∧ StackFits hardware State.reset ∧ State.reset.sp = 0 := by decide
theorem witness_CallThenRetComesBack :
    StackFits hardware { State.reset with sp := 15 } ∧ ({ State.reset with sp := 15 } : State).sp < 16 := by decide
theorem witness_DecimalStoreOrError :
    ({ State.reset with i := 0xFFD } : State).base + 2 ≤ 0xFFF ∧ ({ State.reset with i := 0xFFE } : State).base + 2 > 0xFFF := by
  decide
theorem witness_BlockStoreOrError :
    ({ State.reset with i := 0xFF0 } : State).base + (15 : Reg).toNat ≤ 0xFFF ∧
      ({ State.reset with i := 0xFF1 } : State).base + (15 : Reg).toNat > 0xFFF := by decide
theorem witness_BlockLoadOrError :
    ({ State.reset with i := 0xFFF } : State).base + (0 : Reg).toNat ≤ 0xFFF ∧
      ({ State.reset with i := 0xFFF } : State).base + (1 : Reg).toNat > 0xFFF := by decide
theorem witness_MemoryPrimitives : (0x1000 : Nat) > 0xFFF ∧ (0xFFF : Nat) ≤ 0xFFF := by decide
theorem witness_DrawXorsPixels :
    ({ State.reset with i := 0xFFE } : State).base + (2 : Nibble).toNat ≤ 0x1000 ∧
      ({ State.reset with i := 0xFFF } : State).base + (0 : Nibble).toNat ≤ 0x1000 := by decide
/-- A pixel the sprite lights and one it does not, of glyph 0 at the origin. -/
theorem witness_DrawXorsPixels_pixels :
    SpriteLit State.reset 0 0 1 0 0 ∧ ¬SpriteLit State.reset 0 0 0 0 0 :=
  ⟨⟨0, 0, by decide, by decide, by decide, by decide, by decide⟩, fun ⟨_, _, h, _⟩ => Nat.not_lt_zero _ h⟩
theorem witness_DrawErrorExactly :
    State.reset.status = .running ∧
      (0 < (3 : Nibble).toNat ∧ ({ State.reset with i := 0xFFE } : State).base + (3 : Nibble).toNat - 1 > 0xFFF) ∧
      ¬(0 < (2 : Nibble).toNat ∧ ({ State.reset with i := 0xFFE } : State).base + (2 : Nibble).toNat - 1 > 0xFFF) := by decide
theorem witness_DrawTwiceRestores :
    (0 : Reg) ≠ vf ∧ (14 : Reg) ≠ vf ∧ State.reset.base + (5 : Nibble).toNat ≤ 0x1000 ∧
      (∀ c r, State.reset.pixel c r = false) :=
  ⟨by decide, by decide, by decide, fun c r => by simp [State.pixel, Framebuffer.pixel, State.reset, State.resetWith]⟩

/-- A machine that waits for register 3 at an address, with a mask recorded and another held. -/
def waitingAt (pc seen keys : Word) : State := { startAt pc 0xF30A with wait := .waiting 3 seen, keys := keys }

theorem witness_WaitingStep_no_key :
    (waitingAt 0x202 1 1).status = .running ∧ (waitingAt 0x202 1 1).jumped = false ∧
      (waitingAt 0x202 1 1).wait = .waiting 3 1 ∧
      ∀ k, k < 16 → (waitingAt 0x202 1 1).keys.getLsbD k = true → (1 : Word).getLsbD k = true :=
  ⟨by decide, by decide, by decide, fun _ _ h => h⟩
theorem witness_WaitingStep_key :
    (waitingAt 0x202 0 6).wait = .waiting 3 0 ∧ (waitingAt 0x202 0 6).keys.getLsbD 1 = true ∧ (0 : Word).getLsbD 1 = false ∧
      (∀ m, m < 1 → (waitingAt 0x202 0 6).keys.getLsbD m = true → (0 : Word).getLsbD m = true) ∧
      (waitingAt 0xFFC 0 6).pc.toNat + 2 ≤ 0xFFF := by decide
theorem witness_WaitingStep_top :
    (waitingAt 0xFFE 0 0x8000).wait = .waiting 3 0 ∧ (waitingAt 0xFFE 0 0x8000).keys.getLsbD 15 = true ∧
      (0 : Word).getLsbD 15 = false ∧
      (∀ m, m < 15 → (waitingAt 0xFFE 0 0x8000).keys.getLsbD m = true → (0 : Word).getLsbD m = true) ∧
      (waitingAt 0xFFE 0 0x8000).pc.toNat + 2 > 0xFFF := by decide

theorem witness_StepRunsDecodedInstr :
    (startAt 0xFFE 0x6107).status = .running ∧ (startAt 0xFFE 0x6107).wait = .none ∧
      (startAt 0xFFE 0x6107).pc.toNat % 2 = 0 ∧ (startAt 0xFFE 0x6107).pc.toNat + 1 ≤ 0xFFF ∧
      decode ((startAt 0xFFE 0x6107).byte hardware (startAt 0xFFE 0x6107).pc.toNat ++
        (startAt 0xFFE 0x6107).byte hardware ((startAt 0xFFE 0x6107).pc.toNat + 1)) = .ok (.ldImm 1 7) := by decide
theorem witness_EndOfStep_stopped : (State.reset.halt).status ≠ .running := by decide
theorem witness_EndOfStep_advance :
    State.reset.status = .running ∧ State.reset.jumped = false ∧ State.reset.wait = .none ∧
      ({ State.reset with pc := 0xFFC } : State).pc.toNat + 2 ≤ 0xFFF ∧
      ({ State.reset with pc := 0xFFE } : State).pc.toNat + 2 > 0xFFF := by decide
theorem witness_EndOfStep_jump :
    (State.reset.jump 0x300).status = .running ∧
      ((State.reset.jump 0x300).jumped = true ∨ (State.reset.jump 0x300).wait ≠ .none) ∧
      ((waitingAt 0x202 0 0).jumped = true ∨ (waitingAt 0x202 0 0).wait ≠ .none) := by decide
theorem witness_FetchIsBigEndian :
    ({ State.reset with pc := 0xFFE } : State).pc.toNat % 2 = 0 ∧ ({ State.reset with pc := 0xFFE } : State).pc.toNat + 1 ≤ 0xFFF := by
  decide
theorem witness_FetchErrorsStop :
    State.reset.status = .running ∧ State.reset.wait = .none ∧ ({ State.reset with pc := 0xFFF } : State).pc.toNat % 2 = 1 ∧
      ({ State.reset with pc := 0x1000 } : State).pc.toNat % 2 = 0 ∧
      ({ State.reset with pc := 0x1000 } : State).pc.toNat + 1 > 0xFFF := by decide
theorem witness_InvalidWordStops :
    (start 0x5121).status = .running ∧ (start 0x5121).wait = .none ∧ (start 0x5121).fetch hardware = .ok 0x5121 ∧
      decode 0x5121 = .error .invalidClass5 := by decide
theorem witness_StoppedMachineStays :
    (State.reset.halt).status ≠ .running ∧ (State.reset.raise .stackUnderflow).status ≠ .running := by decide
/-- Steps to a state that runs (with a timer written) and to one that has stopped. -/
theorem witness_EveryStep :
    (∃ t, step (start 0xF015) = .next t) ∧ (∃ t, step (start 0x0000) = .next t) ∧ (start 0xF015).status = .running ∧
      after (start 0xF015) (·.status) = some .running ∧ after (start 0x0000) (·.status) = some .halted :=
  ⟨next_of_isNext (by decide), next_of_isNext (by decide), by decide, by decide, by decide⟩
theorem witness_OnlyTheseInstructionsWrite : exec (.ldI 0x300) State.reset = .next { State.reset with i := 0x300 } := rfl
theorem witness_VfWrittenOnlyBy :
    exec (.ldImm vf 1) State.reset = .next (State.reset.setReg vf 1) ∧ (State.reset.setReg vf 1).reg vf ≠ State.reset.reg vf :=
  ⟨rfl, by decide⟩
theorem witness_ErrorsArePrecise :
    State.reset.status = .running ∧ exec .ret State.reset = .next (State.reset.raise .stackUnderflow) ∧
      (State.reset.raise .stackUnderflow).status = .error .stackUnderflow 0x200 := ⟨rfl, rfl, rfl⟩
theorem witness_OnlyRndReadsRandomByte :
    (∀ x nn, Instr.halt ≠ .rnd x nn) ∧ exec .halt State.reset = .next State.reset.halt := ⟨by simp, rfl⟩
theorem witness_ResetLeaves : (80 : Nat) < 0x1000 ∧ 80 ≤ 80 ∧ (0xFFF : Nat) < 0x1000 := by decide
theorem witness_GlyphsAtReset : (15 : Nat) < 16 ∧ (4 : Nat) < 5 := by decide
theorem witness_LoadPlacesImage :
    State.reset.steps = 0 ∧ (List.replicate 3584 (0 : Byte)).length ≤ 3584 ∧ (List.replicate 3585 (0 : Byte)).length > 3584 ∧
      ({ State.reset with steps := 1 } : State).steps ≠ 0 :=
  ⟨rfl, by rw [List.length_replicate], by rw [List.length_replicate]; decide, by decide⟩
theorem witness_PlacedWordIsFetched :
    ({ State.reset with pc := 0xFFE } : State).pc.toNat % 2 = 0 ∧ ({ State.reset with pc := 0xFFE } : State).pc.toNat + 1 ≤ 0xFFF := by
  decide
theorem witness_StepKeepsMemoryCanonical : MemoryCanonical (start 0xF033) ∧ ∃ t, step (start 0xF033) = .next t :=
  ⟨by unfold MemoryCanonical; decide, next_of_isNext (by decide)⟩
theorem witness_StepKeepsPcAndStack : PcAndStackInRange (start 0x2210) ∧ ∃ t, step (start 0x2210) = .next t :=
  ⟨⟨by decide, by decide, fun k => by
      rw [show (start 0x2210).entry k = 0 from entry_resetWith hardware k]; decide⟩,
    next_of_isNext (by decide)⟩
theorem witness_StepKeepsJumpFlagClear : JumpFlagClear (start 0x1204) ∧ ∃ t, step (start 0x1204) = .next t :=
  ⟨rfl, next_of_isNext (by decide)⟩
theorem witness_StepKeepsStopRecord :
    StopRecordsPc (State.reset.raise .stackUnderflow) ∧ StopRecordsPc (start 0x00EE) ∧ ∃ t, step (start 0x00EE) = .next t :=
  ⟨fun _ _ h => by cases h; exact ⟨rfl, by decide⟩, fun _ _ h => (nomatch h), next_of_isNext (by decide)⟩
theorem witness_StepKeepsWaitOnKeyWord :
    WaitsOnKeyWord (waitingAt 0x202 0 6) ∧ ∃ t, step (waitingAt 0x202 0 6) = .next t :=
  ⟨fun _ _ h => by cases h; exact ⟨0xF30A, by decide, by decide⟩, next_of_isNext (by decide)⟩

/-- Parameters other than this hardware's, at which the clauses of `ParametersAreArguments` have their premises. -/
def otherParams : Config.Params :=
  { hardware with stackCapacity := 2, shiftSource := .y, seVxVyBaselineBug := true, oddPcPolicy := .fetch, ldstIncrementsI := true,
                  protectReserved := true }

theorem witness_ParametersAreArguments :
    ({ State.reset with sp := 2 } : State).sp = otherParams.stackCapacity ∧ State.reset.sp ≠ otherParams.stackCapacity ∧
      (79 : Nat) < otherParams.glyphs.length ∧ otherParams.fontBase + otherParams.glyphs.length ≤ 80 ∧ otherParams.fontBase < 0x1000 ∧
      ({ State.reset with pc := 0xFFE } : State).pc.toNat + 1 ≤ 0xFFF ∧
      ({ State.reset with i := 0xFF0 } : State).base + (15 : Reg).toNat ≤ 0xFFF ∧
      0x200 ≤ ({ State.reset with i := 0x200 } : State).base ∧ otherParams.protectReserved = true ∧
      ({ State.reset with i := 0x1FF } : State).base < 0x200 := by decide
/-- R141 at a stack of two, and R128 with `SHIFT_SOURCE = Y`. -/
theorem test_other_stack :
    execWith otherParams (.call 0x300) { State.reset with sp := 2 } =
      .next ({ State.reset with sp := 2 }.raise .stackOverflow) := by rfl
theorem test_other_shift :
    execWith otherParams (.shr 1 2) (withRegs State.reset [(2, 5)]) = .next (withRegs State.reset [(2, 5), (1, 2), (15, 1)]) := by rfl

end Sys2Proof.Tests
end

section
/-! PROOF. The parameters of spec/00_scope.md R9: what the parametric instructions do at every value of the parameters, and the
obligation that every parameter is an argument of the machine. -/

namespace Sys2Proof.Proofs

open Sys2Proof Sys2Proof.Machine Sys2Proof.Safety

/-! ### Updates of one field -/

theorem frame_regs (s : State) (v : Vector Byte 16) : Frame [.regs] s { s with v := v } := by
  intro part hpart
  cases part with
  | regs => simp at hpart
  | mem => exact fun _ => rfl
  | _ => exact rfl

theorem frame_i (s : State) (w : Word) : Frame [.i] s { s with i := w } := by
  intro part hpart
  cases part with
  | i => simp at hpart
  | regs | mem => exact fun _ => rfl
  | _ => exact rfl

/-! ### A result and a flag outcome (R119) -/

theorem reg_setRegFlag_vf (s : State) (x : Reg) (b : Byte) (f : Bool) : (s.setRegFlag x b f).reg vf = flagByte f := by
  rw [reg_setRegFlag, if_pos rfl]

theorem reg_setRegFlag_of_ne_vf (s : State) {x : Reg} (b : Byte) (f : Bool) (hx : x ≠ vf) : (s.setRegFlag x b f).reg x = b := by
  rw [reg_setRegFlag, if_neg hx, if_pos rfl]

theorem regsExcept_setRegFlag (s : State) (x : Reg) (b : Byte) (f : Bool) : RegsExcept [x, vf] s (s.setRegFlag x b f) := by
  intro r hr
  obtain ⟨hx, hvf⟩ : r ≠ x ∧ r ≠ vf := by simpa using hr
  rw [reg_setRegFlag, if_neg hvf, if_neg hx]

theorem frame_setRegFlag (s : State) (x : Reg) (b : Byte) (f : Bool) : Frame [.regs] s (s.setRegFlag x b f) :=
  setRegFlag_eq s x b f ▸ frame_regs s _

theorem toNat_flagByte (f : Bool) : (flagByte f).toNat = f.toNat := by cases f <;> rfl

/-- All that a result and a flag outcome do: VF is the flag, `V[X]` is the result unless it is VF itself, nothing else changes. -/
theorem setRegFlag_sets (s : State) (x : Reg) (b : Byte) (f : Bool) {result flag : Nat} (hb : b.toNat = result)
    (hf : f.toNat = flag) :
    (x ≠ vf → ((s.setRegFlag x b f).reg x).toNat = result) ∧ ((s.setRegFlag x b f).reg vf).toNat = flag ∧
      RegsExcept [x, vf] s (s.setRegFlag x b f) ∧ Frame [.regs] s (s.setRegFlag x b f) := by
  refine ⟨fun hx => ?_, ?_, regsExcept_setRegFlag s x b f, frame_setRegFlag s x b f⟩
  · rw [reg_setRegFlag_of_ne_vf s b f hx, hb]
  · rw [reg_setRegFlag_vf, toNat_flagByte, hf]

/-! ### The shifted value and the bit shifted out (R128, R130) -/

theorem toNat_shiftedRight (b : Byte) : (shiftedRight b).toNat = b.toNat / 2 := by
  simp only [shiftedRight, BitVec.toNat_ofNat, Nat.shiftRight_eq_div_pow]
  omega

theorem toNat_shiftedLeft (b : Byte) : (shiftedLeft b).toNat = b.toNat * 2 % 256 := by
  simp [shiftedLeft, Nat.shiftLeft_eq]

theorem toNat_bitOutRight (b : Byte) : (bitOutRight b).toNat = b.toNat % 2 := by
  rw [bitOutRight, BitVec.getLsbD, Nat.toNat_testBit, pow_zero, Nat.div_one]

theorem toNat_bitOutLeft (b : Byte) : (bitOutLeft b).toNat = b.toNat / 128 := by
  rw [bitOutLeft, BitVec.getLsbD, Nat.toNat_testBit]
  omega

/-! ### Each parameter's effect -/

section
variable (p : Config.Params) (s : State)

/-- R26, R400: the reset stack has `STACK_CAPACITY` entries, none of them occupied. -/
theorem stackFits_resetWith : StackFits p (State.resetWith p) :=
  ⟨List.length_replicate, Nat.zero_le _⟩

/-- R141. -/
theorem callWith_of_full (nnn : Addr12) (h : s.sp = p.stackCapacity) :
    execWith p (.call nnn) s = .next (s.raise .stackOverflow) := by
  simp only [execWith, execCallWith, push_of_full s s.pc h]

/-- R141. -/
theorem callWith_of_room (nnn : Addr12) (h : s.sp ≠ p.stackCapacity) :
    execWith p (.call nnn) s =
      .next (State.jump { s with stack := s.stack.set s.sp s.pc, sp := s.sp + 1 } (addr16 nnn)) := by
  simp only [execWith, execCallWith, push_of_ne s s.pc h]

/-- R45: the glyphs lie at `FONT_BASE` after reset. -/
theorem byte_resetWith_glyph (k : Nat) : (State.resetWith p).byte p (p.fontBase + k) = p.glyphs.getD k 0 := by
  rw [byte_resetWith, resetByte, if_pos (Nat.le_add_right ..), Nat.add_sub_cancel_left]

/-- R45: memory is 0 outside the glyphs after reset. -/
theorem byte_resetWith_outside {a : Nat} (h : a < p.fontBase ∨ p.fontBase + p.glyphs.length ≤ a) :
    (State.resetWith p).byte p a = 0 := by
  rw [byte_resetWith, resetByte]
  split
  · exact List.getD_eq_default _ _ (by omega)
  · rfl

/-- R162: no wrap for glyphs whose table begins inside memory. -/
theorem toNat_glyphAddress (b : Byte) (h : p.fontBase < 0x1000) :
    (glyphAddress p (lowNibble b)).toNat = p.fontBase + 5 * (b.toNat % 16) := by
  have hn : (lowNibble b).toNat = b.toNat % 16 := by simp [lowNibble]
  rw [glyphAddress, BitVec.toNat_ofNat, hn]
  omega

/-- `SHIFT_SOURCE` (R128, D6). -/
theorem shiftOperand_eq (x y : Reg) :
    s.shiftOperand p x y = if p.shiftSource = .x then s.reg x else s.reg y := by
  unfold State.shiftOperand
  split <;> simp [*]

/-- `SE_VXVY_BASELINE_BUG` (R145, D9). -/
theorem seRegCondition_iff (a b : Byte) : seRegCondition p a b = true ↔ (a = b ↔ p.seVxVyBaselineBug = false) := by
  unfold seRegCondition
  split <;> simp [*]

/-- `ODD_PC_POLICY` (R101, D12): a fetch whose two bytes lie in memory. -/
theorem fetch_inside (h : s.pc.toNat + 1 ≤ 0xFFF) :
    s.fetch p = if s.pc.toNat % 2 = 1 ∧ p.oddPcPolicy = .fault then .error .misalignedFetch
      else .ok (wordOfBytes (s.byte p s.pc.toNat) (s.byte p (s.pc.toNat + 1))) := by
  unfold State.fetch
  rw [if_neg (by omega : ¬s.pc.toNat + 1 > 0xFFF), memRead_ok s (by omega), memRead_ok s h]

/-- R165, for a block inside memory. -/
theorem loadRegsWith_inside (x : Reg) (h : s.base + x.toNat ≤ 0xFFF) :
    execWith p (.loadRegs x) s =
      .next ((s.setRegsFrom 0 ((List.range (x.toNat + 1)).map fun k => s.byte p (s.base + k))).blockAdvance p x) := by
  simp only [execWith, execLoadRegsWith, loadAtI_eq, if_pos (by omega : s.base + (x.toNat + 1) ≤ 0x1000)]

/-- R164, for a block inside memory that begins at no protected address. -/
theorem storeRegsWith_inside (x : Reg) (h : s.base + x.toNat ≤ 0xFFF) (hp : p.protectReserved = false ∨ 0x200 ≤ s.base) :
    execWith p (.storeRegs x) s = .next ((s.placeBytes p s.base (s.regsUpTo x)).blockAdvance p x) := by
  simp only [execWith, execStoreRegsWith, storeAtI_eq s hp, regsUpTo_length,
    if_pos (by omega : s.base + (x.toNat + 1) ≤ 0x1000)]

theorem status_blockAdvance (x : Reg) : (s.blockAdvance p x).status = s.status := by
  unfold State.blockAdvance
  split <;> rfl

theorem regsUpTo_eq_cons (x : Reg) : ∃ vs, s.regsUpTo x = s.reg 0 :: vs := by
  rw [State.regsUpTo, List.range_succ_eq_map, List.map_cons]
  exact ⟨_, rfl⟩

/-- `PROTECT_RESERVED` (R43, R163, D25). -/
theorem ldBWith_protected (x : Reg) (hp : p.protectReserved = true) (h : s.base < 0x200) :
    execWith p (.ldB x) s = .next (s.raise .outOfBounds) := by
  simp only [execWith, execLdBWith, decimalDigits, storeAtI_protected hp s _ _ h]

/-- `PROTECT_RESERVED` (R43, R164, D25). -/
theorem storeRegsWith_protected (x : Reg) (hp : p.protectReserved = true) (h : s.base < 0x200) :
    execWith p (.storeRegs x) s = .next (s.raise .outOfBounds) := by
  obtain ⟨vs, hvs⟩ := regsUpTo_eq_cons s x
  simp only [execWith, execStoreRegsWith, hvs, storeAtI_protected hp s _ _ h]

end

/-- Settles O60: the machine of this hardware is the parametric one at `hardware` by the model's own equations, and every
parameter's clause is that parameter's lemma above. -/
theorem parametersAreArguments : Obligations.ParametersAreArguments := by
  refine ⟨exec_eq_execWith, step_eq_stepWith, rfl, fun _ _ => rfl, fun p x y nnn s => ?_⟩
  refine ⟨?stack, ?font, ?shift, ?skip, fetch_inside p s, ?load, ?store, ?reserved⟩
  case stack =>
    exact ⟨stackFits_resetWith p, callWith_of_full p s nnn, fun h => ⟨_, callWith_of_room p s nnn h, rfl, rfl⟩⟩
  case font =>
    exact ⟨fun k _ => byte_resetWith_glyph p k, fun _ h => byte_resetWith_outside p h,
      fun h => ⟨_, rfl, toNat_glyphAddress p (s.reg x) h, frame_i s _⟩⟩
  case shift =>
    rintro src hsrc
    rw [← shiftOperand_eq] at hsrc
    subst hsrc
    exact ⟨⟨_, rfl, setRegFlag_sets s x _ _ (toNat_shiftedRight _) (toNat_bitOutRight _)⟩,
      ⟨_, rfl, setRegFlag_sets s x _ _ (toNat_shiftedLeft _) (toNat_bitOutLeft _)⟩⟩
  case skip =>
    refine ⟨_, rfl, ?_⟩
    rw [← seRegCondition_iff]
    rcases skipIf_cases s (seRegCondition p (s.reg x) (s.reg y)) with ⟨hc, ht⟩ | ⟨hc, ht⟩
    · exact ⟨fun _ => ht, fun hn => absurd hc hn⟩
    · exact ⟨fun h => by simp [hc] at h, fun _ => ht⟩
  case load =>
    intro h
    refine ⟨_, loadRegsWith_inside p s x h, ?_⟩
    rw [i_blockAdvance, setRegsFrom_eq]
  case store =>
    intro h hp
    refine ⟨_, storeRegsWith_inside p s x h hp, ?_, ?_⟩
    · rw [status_blockAdvance, placeBytes_eq]
    · rw [i_blockAdvance, placeBytes_eq]
  case reserved =>
    exact fun hp h => ⟨ldBWith_protected p s x hp h, storeRegsWith_protected p s x hp h⟩

end Sys2Proof.Proofs
end

section
/-! PROOF. The pieces of state of spec/10_state.md: what each group of instructions can write, said once as `Effect`, and from it
which instructions write which piece, and the invariants of a step that rest on it. -/

namespace Sys2Proof.Proofs

open Sys2Proof Sys2Proof.Machine Sys2Proof.Safety

/-! ### The address register (R22) -/

/-- Settles O26: the mask of R44 is one less than 4096, a power of two. -/
theorem baseIsLowTwelveBits : Obligations.BaseIsLowTwelveBits := by
  intro s
  have hmask : (0x0FFF#16).toNat = 2 ^ 12 - 1 := rfl
  rw [State.base, BitVec.toNat_and, hmask, Nat.and_two_pow_sub_one_eq_mod]

/-! ### The instructions, grouped by what they write -/

/-- R120 to R125, R131, R200: the instructions that write `V[x]` and nothing else. -/
def SetsOnlyReg (x : Reg) (i : Instr) : Prop :=
  (∃ nn, i = .ldImm x nn ∨ i = .addImm x nn ∨ i = .rnd x nn) ∨
    (∃ y, i = .ldReg x y ∨ i = .orReg x y ∨ i = .andReg x y ∨ i = .xorReg x y) ∨ i = .ldVxDT x

/-- R126 to R130: the instructions that write a result and a flag outcome. -/
def SetsRegWithFlag (i : Instr) : Prop :=
  ∃ x y, i = .addReg x y ∨ i = .subReg x y ∨ i = .subnReg x y ∨ i = .shr x y ∨ i = .shl x y

/-- R160 to R162: the instructions that write `I`. -/
def SetsI (i : Instr) : Prop := (∃ nnn, i = .ldI nnn) ∨ (∃ x, i = .addI x) ∨ ∃ x, i = .ldF x

/-- R163, R164: the instructions that write memory. -/
def Stores (i : Instr) : Prop := (∃ x, i = .ldB x) ∨ ∃ x, i = .storeRegs x

/-- R143 to R146, R210, R211: the skips. -/
def Skips (i : Instr) : Prop :=
  (∃ x nn, i = .seImm x nn ∨ i = .sneImm x nn) ∨ (∃ x y, i = .seReg x y ∨ i = .sneReg x y) ∨ ∃ x, i = .skp x ∨ i = .sknp x

/-- The instructions that can jump (R103). -/
def CanJump (i : Instr) : Prop := i = .ret ∨ (∃ nnn, i = .jp nnn ∨ i = .call nnn ∨ i = .jpV0 nnn) ∨ Skips i

/-- The ways an instruction can change the state, each with the instructions that can: it fixes which pieces are written, and the
values the invariants below turn on. `exec_effect` ties it to `exec`. -/
inductive Effect (s : State) : Instr → State → Prop where
  | idle (i : Instr) : Effect s i s
  | halt : Effect s .halt s.halt
  | raise (i : Instr) {k : ErrorKind} (hk : k ≠ .loadTooLarge) : Effect s i (s.raise k)
  | reg {i : Instr} {x : Reg} (hi : SetsOnlyReg x i) (b : Byte) : Effect s i (s.setReg x b)
  | regFlag {i : Instr} (hi : SetsRegWithFlag i) (x : Reg) (b : Byte) (f : Bool) : Effect s i (s.setRegFlag x b f)
  | loadRegs (x : Reg) {bs : List Byte} (hbs : bs.length = x.toNat + 1) :
      Effect s (.loadRegs x) { s with v := (s.setRegsFrom 0 bs).v }
  | setI {i : Instr} (hi : SetsI i) (w : Word) : Effect s i { s with i := w }
  | setDT (x : Reg) : Effect s (.ldDTVx x) { s with dt := s.reg x }
  | setST (x : Reg) : Effect s (.ldSTVx x) { s with st := s.reg x }
  | clear (f : Framebuffer) : Effect s .cls { s with fb := f }
  | draw (x y : Reg) (n : Nibble) (f : Framebuffer) (b : Byte) : Effect s (.drw x y n) (State.setReg { s with fb := f } vf b)
  | store {i : Instr} (hi : Stores i) (bs : List Byte) :
      Effect s i { s with mem := (s.placeBytes hardware s.base bs).mem }
  | wait (x : Reg) : Effect s (.ldVxK x) { s with wait := .waiting x s.keys }
  | skip {i : Instr} (hi : Skips i) : Effect s i (s.jump (s.pc + 4))
  | jump {i : Instr} (hi : ∃ nnn, i = .jp nnn ∨ i = .call nnn ∨ i = .jpV0 nnn) {w : Word} (hw : w.toNat ≤ 0x10FE) :
      Effect s i (s.jump w)
  | call (nnn : Addr12) (hsp : s.sp ≠ 16) :
      Effect s (.call nnn) (State.jump { s with stack := s.stack.set s.sp s.pc, sp := s.sp + 1 } (addr16 nnn))
  | ret {k : Nat} (hsp : s.sp = k + 1) : Effect s .ret (State.jump { s with sp := k } (s.entry k + 2))

theorem toNat_addr16_le (nnn : Addr12) : (addr16 nnn).toNat ≤ 0xFFF := by
  have hlt := nnn.isLt
  rw [addr16, BitVec.toNat_setWidth]
  omega

/-- R147, R24: the highest target of JP V0. -/
theorem toNat_addr16_add_byte16_le (nnn : Addr12) (b : Byte) : (addr16 nnn + byte16 b).toNat ≤ 0x10FE := by
  have hnnn := toNat_addr16_le nnn
  have hb := b.isLt
  rw [BitVec.toNat_add, byte16, BitVec.toNat_setWidth]
  omega

theorem effect_skipIf {i : Instr} (hi : Skips i) (s : State) (c : Bool) : Effect s i (s.skipIf c) := by
  rcases skipIf_cases s c with ⟨-, e⟩ | ⟨-, e⟩ <;> rw [e]
  · exact .skip hi
  · exact .idle i

/-- Every answer of an instruction is one of the ways `Effect` lists for it. -/
theorem exec_effect {i : Instr} {s t : State} (h : exec i s = .next t) : Effect s i t := by
  cases i with
  | halt => cases h; exact .halt
  | sys nnn => cases h; exact .idle _
  | cls => cases h; exact .clear _
  | ret =>
    rcases ret_cases h with ⟨k, hsp, rfl⟩ | ⟨-, rfl⟩
    · exact .ret hsp
    · exact .raise _ nofun
  | jp nnn => cases h; exact .jump ⟨nnn, .inl rfl⟩ ((toNat_addr16_le nnn).trans (by decide))
  | call nnn =>
    rcases call_cases h with ⟨hsp, rfl⟩ | ⟨-, rfl⟩
    · exact .call nnn hsp
    · exact .raise _ nofun
  | jpV0 nnn => cases h; exact .jump ⟨nnn, .inr (.inr rfl)⟩ (toNat_addr16_add_byte16_le nnn _)
  | seImm x nn | sneImm x nn => cases h; exact effect_skipIf (.inl ⟨x, nn, by simp⟩) s _
  | seReg x y | sneReg x y => cases h; exact effect_skipIf (.inr (.inl ⟨x, y, by simp⟩)) s _
  | skp x | sknp x => cases h; exact effect_skipIf (.inr (.inr ⟨x, by simp⟩)) s _
  | ldImm x nn | addImm x nn | rnd x nn => cases h; exact .reg (.inl ⟨nn, by simp⟩) _
  | ldReg x y | orReg x y | andReg x y | xorReg x y => cases h; exact .reg (.inr (.inl ⟨y, by simp⟩)) _
  | ldVxDT x => cases h; exact .reg (.inr (.inr rfl)) _
  | addReg x y | subReg x y | subnReg x y | shr x y | shl x y => cases h; exact .regFlag ⟨x, y, by simp⟩ x _ _
  | ldI nnn => cases h; exact .setI (.inl ⟨nnn, rfl⟩) _
  | addI x => cases h; exact .setI (.inr (.inl ⟨x, rfl⟩)) _
  | ldF x => cases h; exact .setI (.inr (.inr ⟨x, rfl⟩)) _
  | ldDTVx x => cases h; exact .setDT x
  | ldSTVx x => cases h; exact .setST x
  | ldVxK x => cases h; exact .wait x
  | drw x y n =>
    rcases drw_cases h with ⟨-, d, -, rfl⟩ | ⟨-, rfl⟩
    · exact .draw x y n _ _
    · exact .raise _ nofun
  | ldB x =>
    rcases ldB_cases h with ⟨-, rfl⟩ | ⟨-, rfl⟩
    · rw [placeBytes_eq]; exact .store (.inl ⟨x, rfl⟩) _
    · exact .raise _ nofun
  | storeRegs x =>
    rcases storeRegs_cases h with ⟨-, rfl⟩ | ⟨-, rfl⟩
    · rw [placeBytes_eq]; exact .store (.inr ⟨x, rfl⟩) _
    · exact .raise _ nofun
  | loadRegs x =>
    rcases loadRegs_cases h with ⟨-, rfl⟩ | ⟨-, rfl⟩
    · rw [setRegsFrom_eq]; exact .loadRegs x (by simp)
    · exact .raise _ nofun

/-! ### Who writes each piece of state (spec/10_state.md section 11) -/

namespace Effect

variable {i : Instr} {s t : State}

theorem i_kept_or (h : Effect s i t) : t.i = s.i ∨ SetsI i := by
  cases h with
  | setI hi => exact .inr hi
  | _ => exact .inl rfl

theorem dt_kept_or (h : Effect s i t) : t.dt = s.dt ∨ ∃ x, i = .ldDTVx x := by
  cases h with
  | setDT x => exact .inr ⟨x, rfl⟩
  | _ => exact .inl rfl

theorem st_kept_or (h : Effect s i t) : t.st = s.st ∨ ∃ x, i = .ldSTVx x := by
  cases h with
  | setST x => exact .inr ⟨x, rfl⟩
  | _ => exact .inl rfl

theorem stack_kept_or (h : Effect s i t) : t.stack = s.stack ∨ ∃ nnn, i = .call nnn := by
  cases h with
  | call nnn => exact .inr ⟨nnn, rfl⟩
  | _ => exact .inl rfl

theorem sp_kept_or (h : Effect s i t) : t.sp = s.sp ∨ i = .ret ∨ ∃ nnn, i = .call nnn := by
  cases h with
  | ret => exact .inr (.inl rfl)
  | call nnn => exact .inr (.inr ⟨nnn, rfl⟩)
  | _ => exact .inl rfl

theorem fb_kept_or (h : Effect s i t) : t.fb = s.fb ∨ i = .cls ∨ ∃ x y n, i = .drw x y n := by
  cases h with
  | clear => exact .inr (.inl rfl)
  | draw x y n => exact .inr (.inr ⟨x, y, n, rfl⟩)
  | _ => exact .inl rfl

theorem mem_kept_or (h : Effect s i t) : t.mem = s.mem ∨ Stores i := by
  cases h with
  | store hi => exact .inr hi
  | _ => exact .inl rfl

theorem wait_kept_or (h : Effect s i t) : t.wait = s.wait ∨ ∃ x, i = .ldVxK x ∧ t = { s with wait := .waiting x s.keys } := by
  cases h with
  | wait x => exact .inr ⟨x, rfl, rfl⟩
  | _ => exact .inl rfl

/-- R103: an instruction jumps, and then it does not stop the machine, or it leaves the program counter and the jump flag. -/
theorem pc_kept_or (h : Effect s i t) :
    (t.pc = s.pc ∧ t.jumped = s.jumped) ∨ (CanJump i ∧ t.jumped = true ∧ t.status = s.status) := by
  cases h with
  | skip hi => exact .inr ⟨.inr (.inr hi), rfl, rfl⟩
  | jump hi => exact .inr ⟨.inr (.inl hi), rfl, rfl⟩
  | call nnn => exact .inr ⟨.inr (.inl ⟨nnn, .inr (.inl rfl)⟩), rfl, rfl⟩
  | ret => exact .inr ⟨.inl rfl, rfl, rfl⟩
  | _ => exact .inl ⟨rfl, rfl⟩

/-- R21, R119: VF is a flag outcome's, DRW's, or the destination's. -/
theorem vf_kept_or (h : Effect s i t) :
    t.reg vf = s.reg vf ∨ SetsRegWithFlag i ∨ (∃ x y n, i = .drw x y n) ∨ SetsOnlyReg vf i ∨ i = .loadRegs vf := by
  cases h with
  | @reg _ x hi b =>
    by_cases hx : vf = x
    · exact .inr (.inr (.inr (.inl (hx ▸ hi))))
    · exact .inl (by rw [reg_setReg, if_neg hx])
  | regFlag hi => exact .inr (.inl hi)
  | draw x y n => exact .inr (.inr (.inl ⟨x, y, n, rfl⟩))
  | @loadRegs x bs hbs =>
    have hlt := x.isLt
    by_cases hx : x = vf
    · exact .inr (.inr (.inr (.inr (hx ▸ rfl))))
    · have hx15 : x.toNat ≠ 15 := fun e => hx (BitVec.eq_of_toNat_eq e)
      have hvf : vf.toNat = 15 := rfl
      have hkept : (s.setRegsFrom 0 bs).reg vf = s.reg vf := by
        rw [reg_setRegsFrom s 0 bs (by omega), if_neg (by omega)]
      exact .inl hkept
  | _ => exact .inl rfl

/-- R28: no instruction writes the input latch, nor what the model adds to the spec's state (logs 1 to 4). -/
theorem frame (h : Effect s i t) :
    Frame [.regs, .i, .pc, .dt, .st, .stack, .sp, .fb, .mem, .jumped, .wait, .status] s t := by
  intro part hpart
  cases part with
  | keys | tone | args | inputs | steps => cases h <;> rfl
  | _ => simp at hpart

end Effect

/-- Settles O46: each clause is the lemma of `Effect` about its piece of state. -/
theorem onlyTheseInstructionsWrite : Obligations.OnlyTheseInstructionsWrite := by
  intro i s t h
  have e := exec_effect h
  refine ⟨e.i_kept_or.resolve_left, e.dt_kept_or.resolve_left, e.st_kept_or.resolve_left, e.stack_kept_or.resolve_left,
    e.sp_kept_or.resolve_left, e.fb_kept_or.resolve_left, e.mem_kept_or.resolve_left, fun hw => ?wait, fun hpc => ?pc,
    fun hj => ?jumped, e.frame⟩
  case wait =>
    obtain ⟨x, hi, -⟩ := e.wait_kept_or.resolve_left hw
    exact ⟨x, hi⟩
  case pc =>
    rcases e.pc_kept_or with ⟨epc, ej⟩ | ⟨-, hjumped, -⟩
    · exact absurd hpc (not_or.mpr ⟨not_not.mpr epc, not_not.mpr ej⟩)
    · exact hjumped
  case jumped =>
    rcases e.pc_kept_or with ⟨-, ej⟩ | ⟨hi, -, -⟩
    · exact absurd ej hj
    · exact hi

/-- Settles O47: `Effect.vf_kept_or`, with its groups of instructions written out. -/
theorem vfWrittenOnlyBy : Obligations.VfWrittenOnlyBy := by
  intro i s t h hvf
  rcases (exec_effect h).vf_kept_or.resolve_left hvf with hflag | hdrw | (himm | hreg | hdt) | hload
  · exact .inl hflag
  · exact .inr (.inl hdrw)
  · exact .inr (.inr (.inl himm))
  · exact .inr (.inr (.inr (.inl hreg)))
  · exact .inr (.inr (.inr (.inr (.inl hdt))))
  · exact .inr (.inr (.inr (.inr (.inr hload))))

/-! ### The jump flag (R30) -/

theorem endStep_jumped {s : State} (h : s.status ≠ .running → s.jumped = false) : s.endStep.jumped = false := by
  rcases endStep_cases s with ⟨hstop, e⟩ | ⟨-, hj, -, -, e⟩ | ⟨-, -, -, -, e⟩ | ⟨-, -, e⟩ <;> rw [e]
  · exact h hstop
  · exact hj
  · rfl
  · rfl

theorem waitStep_jumped (s : State) (x : Reg) (seen : Word) : (s.waitStep x seen).jumped = s.jumped := by
  rcases waitStep_cases s x seen with ⟨-, e⟩ | ⟨k, -, e⟩
  · rw [e]
  · rw [e]; rfl

/-- Settles O56: phase 6 clears the flag, and a step that stops before phase 6 has not jumped. -/
theorem stepKeepsJumpFlagClear : Obligations.StepKeepsJumpFlagClear := by
  intro s t hs h
  rcases step_cases h with ⟨-, rfl⟩ | ⟨-, x, seen, -, rfl⟩ | ⟨-, -, k, -, rfl⟩ | ⟨-, -, w, r, -, -, rfl⟩ |
    ⟨hrun, -, w, i, u, -, -, hu, rfl⟩
  · exact hs
  · exact endStep_jumped fun _ => (waitStep_jumped _ x seen).trans hs
  · exact hs
  · exact hs
  · refine endStep_jumped fun hstop => ?_
    rcases (exec_effect hu).pc_kept_or with ⟨-, hj⟩ | ⟨-, -, hst⟩
    · exact hj.trans hs
    · exact absurd (hst.trans hrun) hstop

/-! ### The wait (R31) -/

theorem endStep_wait (s : State) : s.endStep.wait = s.wait := by
  rcases endStep_cases s with ⟨-, e⟩ | ⟨-, -, -, -, e⟩ | ⟨-, -, -, -, e⟩ | ⟨-, -, e⟩
  · rw [e]
  · rw [e, raise_wait]
  · rw [e, refresh_wait]
  · rw [e, refresh_wait]

theorem endStep_of_waiting {s : State} (hrun : s.status = .running) (hwait : s.wait ≠ .none) : s.endStep = s.refresh := by
  rcases endStep_cases s with ⟨hstop, -⟩ | ⟨-, -, hnone, -⟩ | ⟨-, -, hnone, -⟩ | ⟨-, -, e⟩
  · exact absurd hrun hstop
  · exact absurd hnone hwait
  · exact absurd hnone hwait
  · exact e

theorem waitsOnKeyWord_of_wait_none {s : State} (h : s.wait = .none) : WaitsOnKeyWord s := by
  intro x seen hw
  rw [h] at hw
  cases hw

/-- R212, R213: a step that ends waiting for `V[x]` leaves `pc` and memory, so the word it began on is the word it waits on. -/
theorem waitsOnKeyWord_endStep_waiting {s : State} {x : Reg} {w : Word} (seen : Word) (hrun : s.status = .running)
    (hf : s.fetch hardware = .ok w) (hd : decode w = .ok (.ldVxK x)) :
    WaitsOnKeyWord (State.endStep { s with wait := .waiting x seen }) := by
  have e := endStep_of_waiting (s := { s with wait := .waiting x seen }) hrun nofun
  rw [e]
  intro y seen' hy
  cases hy
  exact ⟨w, hf, hd⟩

/-- Settles O58: a wait is entered by LD Vx, K at the word just fetched, and nothing but its end changes it. -/
theorem stepKeepsWaitOnKeyWord : Obligations.StepKeepsWaitOnKeyWord := by
  intro s t hs h
  rcases step_cases h with ⟨-, rfl⟩ | ⟨hrun, x, seen, hwait, rfl⟩ | ⟨-, hwait, k, -, rfl⟩ | ⟨-, hwait, w, r, -, -, rfl⟩ |
    ⟨hrun, hwait, w, i, u, hf, hd, hu, rfl⟩
  · exact hs
  · obtain ⟨w, hf, hd⟩ := hs x seen hwait
    rcases waitStep_cases s.takeArgs.tick x seen with ⟨-, e⟩ | ⟨k, -, e⟩
    · rw [e]; exact waitsOnKeyWord_endStep_waiting _ hrun hf hd
    · rw [e]; exact waitsOnKeyWord_of_wait_none (endStep_wait _)
  · exact waitsOnKeyWord_of_wait_none hwait
  · exact waitsOnKeyWord_of_wait_none hwait
  · rcases (exec_effect hu).wait_kept_or with hkept | ⟨x, rfl, rfl⟩
    · exact waitsOnKeyWord_of_wait_none ((endStep_wait u).trans (hkept.trans hwait))
    · exact waitsOnKeyWord_endStep_waiting _ hrun hf hd

/-! ### The program counter and the stack (R24, R26) -/

/-- R141: a push keeps the range, since the address it pushes is that of a word that was fetched. -/
theorem inRange_push {s : State} (hs : PcAndStackInRange s) (hpc : s.pc.toNat ≤ 0xFFE) (heven : s.pc.toNat % 2 = 0)
    (hsp : s.sp ≠ 16) {w : Word} (hw : w.toNat ≤ 0x10FE) :
    PcAndStackInRange (State.jump { s with stack := s.stack.set s.sp s.pc, sp := s.sp + 1 } w) := by
  obtain ⟨-, ⟨hlen, hcap⟩, hentry⟩ := hs
  rw [hardware_stackCapacity] at hlen hcap
  have hroom : s.sp < 16 := by omega
  refine ⟨hw, ⟨(List.length_set ..).trans hlen, hroom⟩, fun k => ?_⟩
  have hk : State.entry (State.jump { s with stack := s.stack.set s.sp s.pc, sp := s.sp + 1 } w) k =
      if k = s.sp then s.pc else s.entry k := entry_set s s.sp s.pc (hlen ▸ hroom) k
  rw [hk]
  split
  · exact ⟨hpc, heven⟩
  · exact hentry k

/-- A jump keeps the range if its target is in range. -/
theorem inRange_jump {s : State} (hs : PcAndStackInRange s) {w : Word} (hw : w.toNat ≤ 0x10FE) :
    PcAndStackInRange (s.jump w) := ⟨hw, hs.2⟩

/-- R142: a pop keeps the range, since the address it returns to is after that of a word in memory. -/
theorem inRange_pop {s : State} (hs : PcAndStackInRange s) {k : Nat} (hsp : s.sp = k + 1) :
    PcAndStackInRange (State.jump { s with sp := k } (s.entry k + 2)) := by
  obtain ⟨-, ⟨hlen, hcap⟩, hentry⟩ := hs
  have hle := (hentry k).1
  have htarget : (s.entry k + 2).toNat ≤ 0x10FE := by bv_omega
  have hdepth : k ≤ hardware.stackCapacity := by omega
  exact ⟨htarget, ⟨hlen, hdepth⟩, hentry⟩

/-- Phase 4, for an instruction that was fetched at `pc`. -/
theorem Effect.inRange {i : Instr} {s t : State} (h : Effect s i t) (hs : PcAndStackInRange s) (hpc : s.pc.toNat ≤ 0xFFE)
    (heven : s.pc.toNat % 2 = 0) : PcAndStackInRange t := by
  cases h with
  | skip => exact inRange_jump hs (by bv_omega)
  | jump _ hw => exact inRange_jump hs hw
  | call nnn hsp => exact inRange_push hs hpc heven hsp ((toNat_addr16_le nnn).trans (by decide))
  | ret hsp => exact inRange_pop hs hsp
  | _ => exact hs

theorem inRange_waitStep {s : State} (hs : PcAndStackInRange s) (x : Reg) (seen : Word) :
    PcAndStackInRange (s.waitStep x seen) := by
  rcases waitStep_cases s x seen with ⟨-, e⟩ | ⟨k, -, e⟩
  · rw [e]; exact hs
  · rw [e]; exact hs

/-- R104, D23: the advance stays inside memory or is not made. -/
theorem inRange_endStep {s : State} (hs : PcAndStackInRange s) : PcAndStackInRange s.endStep := by
  rcases endStep_cases s with ⟨-, e⟩ | ⟨-, -, -, -, e⟩ | ⟨-, -, -, hpc, e⟩ | ⟨-, -, e⟩
  · rw [e]; exact hs
  · rw [e]; exact hs
  · have hadvance : (s.pc + 2).toNat ≤ 0x10FE := by bv_omega
    rw [e]; exact ⟨hadvance, hs.2⟩
  · rw [e]; exact hs

/-- Settles O55: only phase 4 of a step and the advance write `pc` or the stack, and an instruction runs at the even address of a
word in memory. -/
theorem stepKeepsPcAndStack : Obligations.StepKeepsPcAndStack := by
  intro s t hs h
  rcases step_cases h with ⟨-, rfl⟩ | ⟨-, x, seen, -, rfl⟩ | ⟨-, -, k, -, rfl⟩ | ⟨-, -, w, r, -, -, rfl⟩ |
    ⟨-, -, w, i, u, hf, -, hu, rfl⟩
  · exact hs
  · exact inRange_endStep (inRange_waitStep (s := s.takeArgs.tick) hs x seen)
  · exact hs
  · exact hs
  · obtain ⟨heven, hpc, -⟩ := pc_of_fetch_ok hf
    exact inRange_endStep ((exec_effect hu).inRange hs hpc heven)

end Sys2Proof.Proofs
end

section
/-! PROOF. Memory (spec/20_memory.md): its canonical form along every step, the two primitives at every address, the byte order
of an instruction word, and the glyph sprites after reset. -/

namespace Sys2Proof.Proofs

open Sys2Proof Sys2Proof.Machine Sys2Proof.Safety

/-! ### The canonical form (R45, log 7) -/

/-- R163, R164: an instruction writes memory by a store, byte by byte, or not at all. -/
theorem Effect.memoryCanonical {i : Instr} {s t : State} (h : Effect s i t) (hs : MemoryCanonical s) : MemoryCanonical t := by
  cases h with
  | store _ bs => exact wf_placeBytes s s.base bs hs
  | _ => exact hs

theorem waitStep_mem (s : State) (x : Reg) (seen : Word) : (s.waitStep x seen).mem = s.mem := by
  rcases waitStep_cases s x seen with ⟨-, e⟩ | ⟨k, -, e⟩
  · rw [e]
  · rw [e, setReg_mem]

theorem endStep_mem (s : State) : s.endStep.mem = s.mem := by
  rcases endStep_cases s with ⟨-, e⟩ | ⟨-, -, -, -, e⟩ | ⟨-, -, -, -, e⟩ | ⟨-, -, e⟩
  · rw [e]
  · rw [e, raise_mem]
  · rw [e, refresh_mem]
  · rw [e, refresh_mem]

theorem memoryCanonical_of_mem_eq {s t : State} (h : t.mem = s.mem) (hs : MemoryCanonical s) : MemoryCanonical t := by
  rwa [MemoryCanonical, h]

/-- Settles O54: of all phases of a step only the instruction's own writes memory, and it does so by `Memory.write`. -/
theorem stepKeepsMemoryCanonical : Obligations.StepKeepsMemoryCanonical := by
  intro s t hs h
  rcases step_cases h with ⟨-, rfl⟩ | ⟨-, x, seen, -, rfl⟩ | ⟨-, -, k, -, rfl⟩ | ⟨-, -, w, r, -, -, rfl⟩ |
    ⟨-, -, w, i, u, -, -, hu, rfl⟩
  · exact hs
  · exact memoryCanonical_of_mem_eq ((endStep_mem _).trans (waitStep_mem _ x seen)) hs
  · exact hs
  · exact hs
  · exact memoryCanonical_of_mem_eq (endStep_mem u) ((exec_effect hu).memoryCanonical hs)

/-! ### The primitives (R42, R43) -/

theorem frame_mem (s : State) (m : Memory) : Frame [.mem] s { s with mem := m } := by
  intro part hpart
  cases part with
  | mem => simp at hpart
  | regs => exact fun _ => rfl
  | _ => exact rfl

theorem memRead_beyond (p : Config.Params) (s : State) {a : Nat} (h : a > 0xFFF) : s.memRead p a = .error .outOfBounds := if_pos h

theorem memWrite_beyond (p : Config.Params) (s : State) {a : Nat} (v : Byte) (h : a > 0xFFF) :
    s.memWrite p a v = .error .outOfBounds := if_pos h

theorem bytesExcept_setByte (s : State) (a : Nat) (v : Byte) : BytesExcept a 1 s (s.setByte hardware a v) := by
  intro b hb
  have hne : ¬(b = a ∧ a < 0x1000) := by omega
  rw [byte_setByte, if_neg hne]

/-- Settles O27: this hardware does not protect the reserved region, so a write inside memory is `State.setByte`. -/
theorem memoryPrimitives : Obligations.MemoryPrimitives := by
  intro s a v
  refine ⟨fun h => ⟨memRead_beyond hardware s h, memWrite_beyond hardware s v h⟩, fun h => ⟨memRead_ok s h, ?_⟩⟩
  have hread : (s.setByte hardware a v).byte hardware a = v := by
    rw [byte_setByte, if_pos ⟨rfl, by omega⟩]
  exact ⟨_, memWrite_ok s (.inl rfl) v h, hread, bytesExcept_setByte s a v, frame_mem s _⟩

/-! ### The byte order (R47) -/

theorem toNat_wordOfBytes (hi lo : Byte) : (wordOfBytes hi lo).toNat = hi.toNat * 256 + lo.toNat := by
  rw [wordOfBytes, BitVec.toNat_append, ← Nat.shiftLeft_add_eq_or_of_lt lo.isLt, Nat.shiftLeft_eq]

/-- Settles O39: the fetch passes its two checks and joins the two bytes, the high one first. -/
theorem fetchIsBigEndian : Obligations.FetchIsBigEndian := by
  intro s heven hinside
  have hfetch : s.fetch hardware = .ok (wordOfBytes (s.byte hardware s.pc.toNat) (s.byte hardware (s.pc.toNat + 1))) := by
    rw [fetch_eq, if_neg (by omega), if_neg (by omega)]
  exact ⟨_, hfetch, toNat_wordOfBytes _ _⟩

/-! ### The glyph sprites (R45, R46) -/

/-- R45: the glyph table lies at `FONT_BASE`, which is 0 on this hardware (D2), and no other byte is set. -/
theorem byte_reset (a : Nat) : State.reset.byte hardware a = glyphTable.getD a 0 := by
  have hbase : hardware.fontBase + a = a := Nat.zero_add a
  have hbyte := byte_resetWith_glyph hardware a
  rwa [hbase] at hbyte

/-- Settles O51: the byte is the glyph table's, and the table's 80 bytes are compared with the rows of R46 one by one. -/
theorem glyphsAtReset : Obligations.GlyphsAtReset := by
  intro d row hd hrow
  rw [byte_reset]
  revert row
  revert d
  decide

end Sys2Proof.Proofs
end

section
/-! PROOF. The encoding (spec/30_encoding.md): the numbers a word's fields stand for, the decoder on the words of the opcode map,
the words it rejects, and the way back from an instruction to the word it was read from. -/

namespace Sys2Proof.Proofs

open Sys2Proof

/-! ### The fields of a word as numbers (R61) -/

theorem toNat_fieldClass (w : Word) : (fieldClass w).toNat = w.toNat / 4096 % 16 := by
  rw [fieldClass, BitVec.extractLsb'_toNat, Nat.shiftRight_eq_div_pow]

theorem toNat_fieldX (w : Word) : (fieldX w).toNat = w.toNat / 256 % 16 := by
  rw [fieldX, BitVec.extractLsb'_toNat, Nat.shiftRight_eq_div_pow]

theorem toNat_fieldY (w : Word) : (fieldY w).toNat = w.toNat / 16 % 16 := by
  rw [fieldY, BitVec.extractLsb'_toNat, Nat.shiftRight_eq_div_pow]

theorem toNat_fieldN (w : Word) : (fieldN w).toNat = w.toNat % 16 := by
  rw [fieldN, BitVec.extractLsb'_toNat, Nat.shiftRight_zero]

theorem toNat_fieldNN (w : Word) : (fieldNN w).toNat = w.toNat % 256 := by
  rw [fieldNN, BitVec.extractLsb'_toNat, Nat.shiftRight_zero]

theorem toNat_fieldNNN (w : Word) : (fieldNNN w).toNat = w.toNat % 4096 := by
  rw [fieldNNN, BitVec.extractLsb'_toNat, Nat.shiftRight_zero]

/-- Settles O1: each field is a run of the word's digits to base 16. -/
theorem wordIsItsFields : Obligations.WordIsItsFields := by
  intro w
  have hw := w.isLt
  rw [toNat_fieldClass, toNat_fieldX, toNat_fieldY, toNat_fieldN, toNat_fieldNN, toNat_fieldNNN]
  omega

/-! ### The decoder on encoded instructions (R64, R66) -/

/-- R64. -/
theorem wf_sys {nnn : Addr12} : (Instr.sys nnn).wf = true ↔ nnn ≠ 0x000 ∧ nnn ≠ 0x0E0 ∧ nnn ≠ 0x0EE := by
  simp only [Instr.wf, sysOperandOk, Bool.and_eq_true, bne_iff_ne, and_assoc]

/-- The round trip from the instruction, class by class. -/
theorem decode_encode {i : Instr} (hwf : i.wf = true) : decode (encode i) = .ok i := by
  cases i with
  | halt | cls | ret => rfl
  | sys nnn =>
    obtain ⟨h0, hE0, hEE⟩ := wf_sys.mp hwf
    rw [encode, decode_class0 (fieldClass_wordNNN ..), decodeClass0_sys nnn h0 hE0 hEE]
  | jp nnn => rw [encode, decode_class1 (fieldClass_wordNNN ..), fieldNNN_wordNNN]
  | call nnn => rw [encode, decode_class2 (fieldClass_wordNNN ..), fieldNNN_wordNNN]
  | seImm x nn => rw [encode, decode_class3 (fieldClass_wordXNN ..), fieldX_wordXNN, fieldNN_wordXNN]
  | sneImm x nn => rw [encode, decode_class4 (fieldClass_wordXNN ..), fieldX_wordXNN, fieldNN_wordXNN]
  | seReg x y => rw [encode, decode_class5 (fieldClass_wordXYN ..), fieldX_wordXYN, fieldY_wordXYN, fieldN_wordXYN, if_pos rfl]
  | ldImm x nn => rw [encode, decode_class6 (fieldClass_wordXNN ..), fieldX_wordXNN, fieldNN_wordXNN]
  | addImm x nn => rw [encode, decode_class7 (fieldClass_wordXNN ..), fieldX_wordXNN, fieldNN_wordXNN]
  | ldReg x y | orReg x y | andReg x y | xorReg x y | addReg x y | subReg x y | shr x y | subnReg x y | shl x y =>
    rw [encode, decode_class8 (fieldClass_wordXYN ..)]
    simp [decodeClass8]
  | sneReg x y => rw [encode, decode_class9 (fieldClass_wordXYN ..), fieldX_wordXYN, fieldY_wordXYN, fieldN_wordXYN, if_pos rfl]
  | ldI nnn => rw [encode, decode_classA (fieldClass_wordNNN ..), fieldNNN_wordNNN]
  | jpV0 nnn => rw [encode, decode_classB (fieldClass_wordNNN ..), fieldNNN_wordNNN]
  | rnd x nn => rw [encode, decode_classC (fieldClass_wordXNN ..), fieldX_wordXNN, fieldNN_wordXNN]
  | drw x y n => rw [encode, decode_classD (fieldClass_wordXYN ..), fieldX_wordXYN, fieldY_wordXYN, fieldN_wordXYN]
  | skp x | sknp x =>
    rw [encode, decode_classE (fieldClass_wordXNN ..)]
    simp [decodeClassE]
  | ldVxDT x | ldVxK x | ldDTVx x | ldSTVx x | addI x | ldF x | ldB x | storeRegs x | loadRegs x =>
    rw [encode, decode_classF (fieldClass_wordXNN ..)]
    simp [decodeClassF]

/-- R47, R60: an instruction at the head of a byte list is the word of its first two bytes. -/
theorem decodeBytes_of_decode {w : Word} {i : Instr} (h : decode w = .ok i) (rest : List Byte) :
    decodeBytes (highByte w :: lowByte w :: rest) = .ok (i, rest) := by
  simp only [decodeBytes, wordOfBytes_bytes, h]

/-- Settles O3: `decode_encode`, and its word's two bytes put together again. -/
theorem decodeOfEncode : Obligations.DecodeOfEncode := by
  intro i rest hwf
  have hword := decode_encode hwf
  exact ⟨hword, decodeBytes_of_decode hword rest⟩

/-- Settles O2: each row is the encoding of its instruction, which is well-formed, so the row is `decode_encode`. -/
theorem opcodeMapDecodes : Obligations.OpcodeMapDecodes := by
  intro x y n nn nnn
  have hrow (i : Instr) (hwf : i.wf = true) := decode_encode hwf
  exact ⟨hrow .halt rfl, hrow .cls rfl, hrow .ret rfl, fun h0 hE0 hEE => hrow (.sys nnn) (wf_sys.mpr ⟨h0, hE0, hEE⟩),
    hrow (.jp nnn) rfl, hrow (.call nnn) rfl, hrow (.seImm x nn) rfl, hrow (.sneImm x nn) rfl, hrow (.seReg x y) rfl,
    hrow (.ldImm x nn) rfl, hrow (.addImm x nn) rfl, hrow (.ldReg x y) rfl, hrow (.orReg x y) rfl, hrow (.andReg x y) rfl,
    hrow (.xorReg x y) rfl, hrow (.addReg x y) rfl, hrow (.subReg x y) rfl, hrow (.shr x y) rfl, hrow (.subnReg x y) rfl,
    hrow (.shl x y) rfl, hrow (.sneReg x y) rfl, hrow (.ldI nnn) rfl, hrow (.jpV0 nnn) rfl, hrow (.rnd x nn) rfl,
    hrow (.drw x y n) rfl, hrow (.skp x) rfl, hrow (.sknp x) rfl, hrow (.ldVxDT x) rfl, hrow (.ldVxK x) rfl,
    hrow (.ldDTVx x) rfl, hrow (.ldSTVx x) rfl, hrow (.addI x) rfl, hrow (.ldF x) rfl, hrow (.ldB x) rfl,
    hrow (.storeRegs x) rfl, hrow (.loadRegs x) rfl⟩

/-! ### The instruction a word decodes to (R63) -/

/-- `fieldClass_cases`, as the sixteen cases of a proof over the classes. -/
theorem fieldClass_eq_cases (w : Word) :
    fieldClass w = 0x0 ∨ fieldClass w = 0x1 ∨ fieldClass w = 0x2 ∨ fieldClass w = 0x3 ∨ fieldClass w = 0x4 ∨
      fieldClass w = 0x5 ∨ fieldClass w = 0x6 ∨ fieldClass w = 0x7 ∨ fieldClass w = 0x8 ∨ fieldClass w = 0x9 ∨
      fieldClass w = 0xA ∨ fieldClass w = 0xB ∨ fieldClass w = 0xC ∨ fieldClass w = 0xD ∨ fieldClass w = 0xE ∨
      fieldClass w = 0xF := by
  simpa using fieldClass_cases w

section
variable {w : Word} {c : Nibble}

theorem wordNNN_of_class (hc : fieldClass w = c) : wordNNN c (fieldNNN w) = w := by
  rw [← hc, word_eq_NNN]

theorem wordXNN_of_class (hc : fieldClass w = c) : wordXNN c (fieldX w) (fieldNN w) = w := by
  rw [← hc, word_eq_XNN]

theorem wordXYN_of_class (hc : fieldClass w = c) : wordXYN c (fieldX w) (fieldY w) (fieldN w) = w := by
  rw [← hc, word_eq_XYN]

theorem wordXNN_of_class_of_toNat (hc : fieldClass w = c) {nn : Byte} (hnn : (fieldNN w).toNat = nn.toNat) :
    wordXNN c (fieldX w) nn = w := by
  rw [← BitVec.eq_of_toNat_eq hnn, wordXNN_of_class hc]

theorem wordXYN_of_class_of_toNat (hc : fieldClass w = c) {n : Nibble} (hn : (fieldN w).toNat = n.toNat) :
    wordXYN c (fieldX w) (fieldY w) n = w := by
  rw [← BitVec.eq_of_toNat_eq hn, wordXYN_of_class hc]

end

/-- `i` is a well-formed instruction, and `w` is its word. -/
def IsWordOf (w : Word) (i : Instr) : Prop := encode i = w ∧ i.wf = true

theorem isWordOf_of_ok {w : Word} {i j : Instr} (h : decode w = .ok i) (hj : decode w = .ok j) (hw : IsWordOf w j) :
    IsWordOf w i :=
  Except.ok.inj (hj.symm.trans h) ▸ hw

theorem isWordOf_decodeClass0 {w : Word} (hc : fieldClass w = 0x0) : IsWordOf w (decodeClass0 w) := by
  have hw := wordNNN_of_class hc
  unfold decodeClass0
  split_ifs with h0 hE0 hEE
  · exact ⟨h0.symm, rfl⟩
  · exact ⟨hE0.symm, rfl⟩
  · exact ⟨hEE.symm, rfl⟩
  · have hne (k : Addr12) (hk : w ≠ wordNNN 0x0 k) : fieldNNN w ≠ k := fun e => hk (by rw [← e, hw])
    exact ⟨hw, wf_sys.mpr ⟨hne 0x000 h0, hne 0x0E0 hE0, hne 0x0EE hEE⟩⟩

theorem isWordOf_of_decodeClass8 {w : Word} {i : Instr} (hc : fieldClass w = 0x8) (h : decodeClass8 w = .ok i) :
    IsWordOf w i := by
  unfold decodeClass8 at h
  split at h
  all_goals cases h
  all_goals exact ⟨wordXYN_of_class_of_toNat hc ‹_›, rfl⟩

theorem isWordOf_of_decodeClassE {w : Word} {i : Instr} (hc : fieldClass w = 0xE) (h : decodeClassE w = .ok i) :
    IsWordOf w i := by
  unfold decodeClassE at h
  split at h
  all_goals cases h
  all_goals exact ⟨wordXNN_of_class_of_toNat hc ‹_›, rfl⟩

theorem isWordOf_of_decodeClassF {w : Word} {i : Instr} (hc : fieldClass w = 0xF) (h : decodeClassF w = .ok i) :
    IsWordOf w i := by
  unfold decodeClassF at h
  split at h
  all_goals cases h
  all_goals exact ⟨wordXNN_of_class_of_toNat hc ‹_›, rfl⟩

/-- Settles O4: in each of the sixteen classes the fields read are the fields written. -/
theorem encodeOfDecode : Obligations.EncodeOfDecode := by
  intro w i h
  change IsWordOf w i
  obtain hc | hc | hc | hc | hc | hc | hc | hc | hc | hc | hc | hc | hc | hc | hc | hc := fieldClass_eq_cases w
  · exact isWordOf_of_ok h (decode_class0 hc) (isWordOf_decodeClass0 hc)
  · exact isWordOf_of_ok h (decode_class1 hc) ⟨wordNNN_of_class hc, rfl⟩
  · exact isWordOf_of_ok h (decode_class2 hc) ⟨wordNNN_of_class hc, rfl⟩
  · exact isWordOf_of_ok h (decode_class3 hc) ⟨wordXNN_of_class hc, rfl⟩
  · exact isWordOf_of_ok h (decode_class4 hc) ⟨wordXNN_of_class hc, rfl⟩
  · rw [decode_class5 hc] at h
    split_ifs at h with hn
    cases h
    exact ⟨wordXYN_of_class_of_toNat hc (congrArg BitVec.toNat hn), rfl⟩
  · exact isWordOf_of_ok h (decode_class6 hc) ⟨wordXNN_of_class hc, rfl⟩
  · exact isWordOf_of_ok h (decode_class7 hc) ⟨wordXNN_of_class hc, rfl⟩
  · exact isWordOf_of_decodeClass8 hc (decode_class8 hc ▸ h)
  · rw [decode_class9 hc] at h
    split_ifs at h with hn
    cases h
    exact ⟨wordXYN_of_class_of_toNat hc (congrArg BitVec.toNat hn), rfl⟩
  · exact isWordOf_of_ok h (decode_classA hc) ⟨wordNNN_of_class hc, rfl⟩
  · exact isWordOf_of_ok h (decode_classB hc) ⟨wordNNN_of_class hc, rfl⟩
  · exact isWordOf_of_ok h (decode_classC hc) ⟨wordXNN_of_class hc, rfl⟩
  · exact isWordOf_of_ok h (decode_classD hc) ⟨wordXYN_of_class hc, rfl⟩
  · exact isWordOf_of_decodeClassE hc (decode_classE hc ▸ h)
  · exact isWordOf_of_decodeClassF hc (decode_classF hc ▸ h)

/-! ### The words that are rejected (R65) -/

/-- R65: the words rejected under each name; no word is a list of fewer than two bytes. -/
def Rejected (w : Word) : Reject → Prop
  | .invalidClass5 => fieldClass w = 0x5 ∧ fieldN w ≠ 0
  | .invalidClass8 => fieldClass w = 0x8 ∧ fieldN w ∈ [0x8#4, 0x9#4, 0xA#4, 0xB#4, 0xC#4, 0xD#4, 0xF#4]
  | .invalidClass9 => fieldClass w = 0x9 ∧ fieldN w ≠ 0
  | .invalidClassE => fieldClass w = 0xE ∧ fieldNN w ∉ [0x9E#8, 0xA1#8]
  | .invalidClassF => fieldClass w = 0xF ∧
      fieldNN w ∉ [0x07#8, 0x0A#8, 0x15#8, 0x18#8, 0x1E#8, 0x29#8, 0x33#8, 0x55#8, 0x65#8]
  | .truncated => False

/-- R65: the values of N that class 8 leaves without a meaning are those that are none of its nine. -/
theorem mem_invalid8_iff (n : Nibble) :
    n ∈ [0x8#4, 0x9#4, 0xA#4, 0xB#4, 0xC#4, 0xD#4, 0xF#4] ↔ n.toNat ∉ [0, 1, 2, 3, 4, 5, 6, 7, 0xE] := by
  revert n
  decide

section
variable {w : Word} {r : Reject}

/-- The two classes with one meaning, at N = 0. -/
theorem decode_eq_error_iff_of_ite {i : Instr} {e : Reject} (hd : decode w = if fieldN w = 0 then .ok i else .error e)
    (hrej : Rejected w r ↔ r = e ∧ fieldN w ≠ 0) : decode w = .error r ↔ Rejected w r := by
  rw [hrej, hd]
  split_ifs with hn <;> simp_all [eq_comm (b := r)]

theorem decodeClass8_eq_error_iff (hc : fieldClass w = 0x8) : decodeClass8 w = .error r ↔ Rejected w r := by
  have hrej : Rejected w r ↔ r = .invalidClass8 ∧ (fieldN w).toNat ∉ [0, 1, 2, 3, 4, 5, 6, 7, 0xE] := by
    rw [← mem_invalid8_iff]
    cases r <;> simp [Rejected, hc]
  rw [hrej, decodeClass8]
  split <;> simp_all [eq_comm (b := r)]

theorem decodeClassE_eq_error_iff (hc : fieldClass w = 0xE) : decodeClassE w = .error r ↔ Rejected w r := by
  have hrej : Rejected w r ↔ r = .invalidClassE ∧ (fieldNN w).toNat ∉ [0x9E, 0xA1] := by
    cases r <;> simp [Rejected, hc, ← BitVec.toNat_inj]
  rw [hrej, decodeClassE]
  split <;> simp_all [eq_comm (b := r)]

theorem decodeClassF_eq_error_iff (hc : fieldClass w = 0xF) : decodeClassF w = .error r ↔ Rejected w r := by
  have hrej : Rejected w r ↔
      r = .invalidClassF ∧ (fieldNN w).toNat ∉ [0x07, 0x0A, 0x15, 0x18, 0x1E, 0x29, 0x33, 0x55, 0x65] := by
    cases r <;> simp [Rejected, hc, ← BitVec.toNat_inj]
  rw [hrej, decodeClassF]
  split <;> simp_all [eq_comm (b := r)]

theorem fieldClass_of_rejected (h : Rejected w r) : fieldClass w ∈ [0x5#4, 0x8#4, 0x9#4, 0xE#4, 0xF#4] := by
  cases r <;> simp_all [Rejected]

/-- The classes in which every word has a meaning. -/
theorem decode_eq_error_iff_of_ok {i : Instr} (hok : decode w = .ok i) {c : Nibble} (hc : fieldClass w = c)
    (hvalid : c ∉ [0x5#4, 0x8#4, 0x9#4, 0xE#4, 0xF#4]) : decode w = .error r ↔ Rejected w r :=
  iff_of_false (by simp [hok]) fun h => hvalid (hc ▸ fieldClass_of_rejected h)

/-- The decoder rejects a word, class by class, exactly under the name R65 gives it. -/
theorem decode_eq_error_iff : decode w = .error r ↔ Rejected w r := by
  obtain hc | hc | hc | hc | hc | hc | hc | hc | hc | hc | hc | hc | hc | hc | hc | hc := fieldClass_eq_cases w
  · exact decode_eq_error_iff_of_ok (decode_class0 hc) hc (by decide)
  · exact decode_eq_error_iff_of_ok (decode_class1 hc) hc (by decide)
  · exact decode_eq_error_iff_of_ok (decode_class2 hc) hc (by decide)
  · exact decode_eq_error_iff_of_ok (decode_class3 hc) hc (by decide)
  · exact decode_eq_error_iff_of_ok (decode_class4 hc) hc (by decide)
  · exact decode_eq_error_iff_of_ite (decode_class5 hc) (by cases r <;> simp [Rejected, hc])
  · exact decode_eq_error_iff_of_ok (decode_class6 hc) hc (by decide)
  · exact decode_eq_error_iff_of_ok (decode_class7 hc) hc (by decide)
  · rw [decode_class8 hc, decodeClass8_eq_error_iff hc]
  · exact decode_eq_error_iff_of_ite (decode_class9 hc) (by cases r <;> simp [Rejected, hc])
  · exact decode_eq_error_iff_of_ok (decode_classA hc) hc (by decide)
  · exact decode_eq_error_iff_of_ok (decode_classB hc) hc (by decide)
  · exact decode_eq_error_iff_of_ok (decode_classC hc) hc (by decide)
  · exact decode_eq_error_iff_of_ok (decode_classD hc) hc (by decide)
  · rw [decode_classE hc, decodeClassE_eq_error_iff hc]
  · rw [decode_classF hc, decodeClassF_eq_error_iff hc]

end

/-- Settles O5: `decode_eq_error_iff` at each of the six names. -/
theorem invalidWordsExactly : Obligations.InvalidWordsExactly := fun _ =>
  ⟨decode_eq_error_iff (r := .invalidClass5), decode_eq_error_iff (r := .invalidClass8),
    decode_eq_error_iff (r := .invalidClass9), decode_eq_error_iff (r := .invalidClassE),
    decode_eq_error_iff (r := .invalidClassF), (decode_eq_error_iff (r := .truncated)).mp⟩

/-! ### Words of the test vectors -/

/-- Settles O6: the decoder is run on each word. -/
theorem knownWordsDecode : Obligations.KnownWordsDecode := by
  unfold Obligations.KnownWordsDecode
  decide

end Sys2Proof.Proofs
end

section
/-! PROOF. The step and the dispatch (spec/40_step_and_dispatch.md R100 to R108): what a step answers in each of its phases, what
an instruction can do to the run status and on which condition, and that only RND reads the random byte. -/

namespace Sys2Proof.Proofs

open Sys2Proof Sys2Proof.Machine Sys2Proof.Safety

/-! ### The run status after an instruction (R102, R300) -/

/-- R102, R300 (D13, D14): the instructions that raise each kind of error, each with its condition. -/
def ErrorCause (i : Instr) (s : State) : ErrorKind → Prop
  | .stackOverflow => s.sp = 16 ∧ ∃ nnn, i = .call nnn
  | .stackUnderflow => s.sp = 0 ∧ i = .ret
  | .outOfBounds =>
    (∃ x, i = .ldB x ∧ s.base + 2 > 0xFFF) ∨ (∃ x, i = .storeRegs x ∧ s.base + x.toNat > 0xFFF) ∨
      (∃ x, i = .loadRegs x ∧ s.base + x.toNat > 0xFFF) ∨
      ∃ x y n, i = .drw x y n ∧ 0 < n.toNat ∧ s.base + n.toNat - 1 > 0xFFF
  | .invalidInstruction | .loadTooLarge | .misalignedFetch => False

theorem ErrorCause.ne_loadTooLarge {i : Instr} {s : State} {k : ErrorKind} (h : ErrorCause i s k) : k ≠ .loadTooLarge := by
  rintro rfl
  exact h

theorem skipIf_status (s : State) (c : Bool) : (s.skipIf c).status = s.status := by
  rcases skipIf_cases s c with ⟨-, e⟩ | ⟨-, e⟩
  · rw [e, jump_status]
  · rw [e]

/-- All that an instruction can do to the run status: nothing, HALT's stop, or an error it has a cause to raise. -/
theorem exec_status_cases {i : Instr} {s t : State} (h : exec i s = .next t) :
    t.status = s.status ∨ t = s.halt ∨ ∃ k, ErrorCause i s k ∧ t = s.raise k := by
  cases i with
  | halt => cases h; exact .inr (.inl rfl)
  | call nnn =>
    rcases call_cases h with ⟨-, rfl⟩ | ⟨hsp, rfl⟩
    · exact .inl rfl
    · exact .inr (.inr ⟨.stackOverflow, ⟨hsp, nnn, rfl⟩, rfl⟩)
  | ret =>
    rcases ret_cases h with ⟨k, -, rfl⟩ | ⟨hsp, rfl⟩
    · exact .inl rfl
    · exact .inr (.inr ⟨.stackUnderflow, ⟨hsp, rfl⟩, rfl⟩)
  | ldB x =>
    rcases ldB_cases h with ⟨-, rfl⟩ | ⟨hb, rfl⟩
    · rw [placeBytes_eq]; exact .inl rfl
    · exact .inr (.inr ⟨.outOfBounds, .inl ⟨x, rfl, by omega⟩, rfl⟩)
  | storeRegs x =>
    rcases storeRegs_cases h with ⟨-, rfl⟩ | ⟨hb, rfl⟩
    · rw [placeBytes_eq]; exact .inl rfl
    · exact .inr (.inr ⟨.outOfBounds, .inr (.inl ⟨x, rfl, by omega⟩), rfl⟩)
  | loadRegs x =>
    rcases loadRegs_cases h with ⟨-, rfl⟩ | ⟨hb, rfl⟩
    · rw [setRegsFrom_eq]; exact .inl rfl
    · exact .inr (.inr ⟨.outOfBounds, .inr (.inr (.inl ⟨x, rfl, by omega⟩)), rfl⟩)
  | drw x y n =>
    have hbase := base_lt s
    rcases drw_cases h with ⟨-, d, -, rfl⟩ | ⟨hb, rfl⟩
    · exact .inl rfl
    · exact .inr (.inr ⟨.outOfBounds, .inr (.inr (.inr ⟨x, y, n, rfl, by omega, by omega⟩)), rfl⟩)
  | seImm | sneImm | seReg | sneReg | skp | sknp => cases h; exact .inl (skipIf_status s _)
  | _ => cases h; exact .inl rfl

/-! ### What an error records (R108, R303) -/

theorem stopRecordsPc_of_safe {s : State} (h : Safe s) : StopRecordsPc s := fun k e he => absurd he (h k e)

theorem safe_of_running {s : State} (h : s.status = .running) : Safe s := fun k e he => by simp [h] at he

theorem safe_halt (s : State) : Safe s.halt := nofun

theorem stopRecordsPc_raise (s : State) {k : ErrorKind} (hk : k ≠ .loadTooLarge) : StopRecordsPc (s.raise k) := by
  rintro k' e he
  cases he
  exact ⟨rfl, hk⟩

/-- R104: phases 5 to 7 raise OutOfBounds at the present `pc`, leave a stopped machine alone, or leave a running one running. -/
theorem stopRecordsPc_endStep {s : State} (hs : StopRecordsPc s) : StopRecordsPc s.endStep := by
  rcases endStep_cases s with ⟨-, e⟩ | ⟨-, -, -, -, e⟩ | ⟨hrun, -, -, -, e⟩ | ⟨hrun, -, e⟩ <;> rw [e]
  · exact hs
  · exact stopRecordsPc_raise s nofun
  · exact stopRecordsPc_of_safe (safe_of_running hrun)
  · exact stopRecordsPc_of_safe (safe_of_running hrun)

theorem waitStep_status (s : State) (x : Reg) (seen : Word) : (s.waitStep x seen).status = s.status := by
  rcases waitStep_cases s x seen with ⟨-, e⟩ | ⟨k, -, e⟩
  · rw [e]
  · rw [e, setReg_status]

/-- R101: the kinds of error a fetch can meet. -/
theorem fetch_error_ne_loadTooLarge {s : State} {k : ErrorKind} (h : s.fetch hardware = .error k) : k ≠ .loadTooLarge := by
  rw [fetch_eq] at h
  split_ifs at h
  all_goals cases h; nofun

/-- Settles O57: every error of a step is a `State.raise` in the phase that ends it, and none has the kind of a failed load. -/
theorem stepKeepsStopRecord : Obligations.StepKeepsStopRecord := by
  intro s t hs h
  rcases step_cases h with ⟨-, rfl⟩ | ⟨hrun, x, seen, -, rfl⟩ | ⟨-, -, k, hf, rfl⟩ | ⟨-, -, w, r, -, -, rfl⟩ |
    ⟨hrun, -, w, i, u, -, -, hu, rfl⟩
  · exact hs
  · exact stopRecordsPc_endStep (stopRecordsPc_of_safe (safe_of_running ((waitStep_status _ x seen).trans hrun)))
  · exact stopRecordsPc_raise _ (fetch_error_ne_loadTooLarge hf)
  · exact stopRecordsPc_raise _ nofun
  · refine stopRecordsPc_endStep ?_
    rcases exec_status_cases hu with hst | rfl | ⟨k, hk, rfl⟩
    · exact stopRecordsPc_of_safe (safe_of_running (hst.trans hrun))
    · exact stopRecordsPc_of_safe (safe_halt _)
    · exact stopRecordsPc_raise _ hk.ne_loadTooLarge

/-! ### What a step answers, phase by phase (R100) -/

/-- R302, R303: an instruction answers a next state from every state, whether it stops the machine or not. -/
theorem exec_next (i : Instr) (s : State) : ∃ t, exec i s = .next t := by
  cases i with
  | call nnn => simp only [exec, execCall, execCallWith]; split <;> exact ⟨_, rfl⟩
  | ret => simp only [exec, execRet]; split <;> exact ⟨_, rfl⟩
  | ldB x => simp only [exec, execLdB, execLdBWith]; split <;> exact ⟨_, rfl⟩
  | storeRegs x => simp only [exec, execStoreRegs, execStoreRegsWith]; split <;> exact ⟨_, rfl⟩
  | loadRegs x => simp only [exec, execLoadRegs, execLoadRegsWith]; split <;> exact ⟨_, rfl⟩
  | drw x y n => simp only [exec, execDrw, execDrwWith]; split <;> exact ⟨_, rfl⟩
  | _ => exact ⟨_, rfl⟩

section
variable {s : State}

/-- R107. -/
theorem step_of_stopped (h : s.status ≠ .running) : step s = .next { s with tone := false } := if_pos h

theorem step_of_running (hrun : s.status = .running) : step s = s.takeArgs.tick.runPhases hardware exec :=
  if_neg (not_not.mpr hrun)

/-- R213. -/
theorem step_of_waiting (hrun : s.status = .running) {x : Reg} {seen : Word} (hwait : s.wait = .waiting x seen) :
    step s = .next (s.takeArgs.tick.waitStep x seen).endStep := by
  simp only [step_of_running hrun, State.runPhases, tick_wait, takeArgs_wait, hwait]

theorem step_of_not_waiting (hrun : s.status = .running) (hwait : s.wait = .none) :
    step s = s.takeArgs.tick.runInstr hardware exec := by
  simp only [step_of_running hrun, State.runPhases, tick_wait, takeArgs_wait, hwait]

/-- R101. -/
theorem step_of_fetch_error (hrun : s.status = .running) (hwait : s.wait = .none) {k : ErrorKind}
    (hf : s.fetch hardware = .error k) : step s = .next (s.takeArgs.tick.raise k) := by
  simp only [step_of_not_waiting hrun hwait, State.runInstr, fetch_tick, fetch_takeArgs, hf]

/-- R102. -/
theorem step_of_invalid (hrun : s.status = .running) (hwait : s.wait = .none) {w : Word} (hf : s.fetch hardware = .ok w)
    {r : Reject} (hd : decode w = .error r) : step s = .next (s.takeArgs.tick.raise .invalidInstruction) := by
  simp only [step_of_not_waiting hrun hwait, State.runInstr, fetch_tick, fetch_takeArgs, hf, hd]

/-- R102, R104. -/
theorem step_of_exec (hrun : s.status = .running) (hwait : s.wait = .none) {w : Word} (hf : s.fetch hardware = .ok w)
    {i : Instr} (hd : decode w = .ok i) {t : State} (ht : exec i s.takeArgs.tick = .next t) : step s = .next t.endStep := by
  simp only [step_of_not_waiting hrun hwait, State.runInstr, fetch_tick, fetch_takeArgs, hf, hd, ht]

end

/-- Settles O45: each way a step can go has its answer above, and the instruction itself always answers. -/
theorem stepAlwaysReturns : Obligations.StepAlwaysReturns := by
  intro s
  by_cases hrun : s.status = .running
  · cases hwait : s.wait with
    | waiting x seen => exact ⟨_, step_of_waiting hrun hwait⟩
    | none =>
      cases hf : s.fetch hardware with
      | error k => exact ⟨_, step_of_fetch_error hrun hwait hf⟩
      | ok w =>
        cases hd : decode w with
        | error r => exact ⟨_, step_of_invalid hrun hwait hf hd⟩
        | ok i =>
          obtain ⟨t, ht⟩ := exec_next i s.takeArgs.tick
          exact ⟨_, step_of_exec hrun hwait hf hd ht⟩
  · exact ⟨_, step_of_stopped hrun⟩

/-! ### Frames of the phases -/

theorem frame_refl (s : State) : Frame [] s s := by
  intro part _
  cases part with
  | regs | mem => exact fun _ => rfl
  | _ => exact rfl

theorem kept_trans {s t u : State} {part : Part} (h : Part.Kept s t part) (h' : Part.Kept t u part) : Part.Kept s u part := by
  cases part with
  | regs | mem => exact fun a => (h' a).trans (h a)
  | _ => exact h'.trans h

/-- Two phases in turn change what either changes. -/
theorem frame_trans {s t u : State} {c c' d : List Part} (h : Frame c s t) (h' : Frame c' t u) (hc : c ⊆ d) (hc' : c' ⊆ d) :
    Frame d s u := fun part hpart =>
  kept_trans (h part fun hmem => hpart (hc hmem)) (h' part fun hmem => hpart (hc' hmem))

theorem frame_status (s : State) (st : Status) : Frame [.status] s { s with status := st } := by
  intro part hpart
  cases part with
  | status => simp at hpart
  | regs | mem => exact fun _ => rfl
  | _ => exact rfl

theorem frame_tone (s : State) (b : Bool) : Frame [.tone] s { s with tone := b } := by
  intro part hpart
  cases part with
  | tone => simp at hpart
  | regs | mem => exact fun _ => rfl
  | _ => exact rfl

theorem frame_tick (s : State) : Frame [.dt, .st, .tone, .args, .inputs, .steps] s s.takeArgs.tick := by
  intro part hpart
  cases part with
  | dt | st | tone | args | inputs | steps => simp at hpart
  | regs | mem => exact fun _ => rfl
  | _ => exact rfl

theorem frame_refresh (s : State) : Frame [.jumped, .keys] s s.refresh := by
  intro part hpart
  cases part with
  | jumped | keys => simp at hpart
  | regs | mem => exact fun _ => rfl
  | _ => exact rfl

/-- The advance clears a jump flag that was clear. -/
theorem frame_advance {s : State} (hj : s.jumped = false) (w : Word) : Frame [.pc, .keys] s { s with pc := w }.refresh := by
  intro part hpart
  cases part with
  | pc | keys => simp at hpart
  | jumped => exact hj.symm
  | regs | mem => exact fun _ => rfl
  | _ => exact rfl

/-! ### The end of a step (R104) -/

theorem endStep_of_stopped {s : State} (h : s.status ≠ .running) : s.endStep = s := if_pos h

section
variable {s : State} (hrun : s.status = .running)
include hrun

theorem endStep_of_beyond (hj : s.jumped = false) (hwait : s.wait = .none) (hpc : s.pc.toNat + 2 > 0xFFF) :
    s.endStep = s.raise .outOfBounds := by
  rw [State.endStep, if_neg (not_not.mpr hrun), if_pos ⟨hj, hwait⟩, if_pos hpc]

theorem endStep_of_inside (hj : s.jumped = false) (hwait : s.wait = .none) (hpc : s.pc.toNat + 2 ≤ 0xFFF) :
    s.endStep = { s with pc := s.pc + 2 }.refresh := by
  rw [State.endStep, if_neg (not_not.mpr hrun), if_pos ⟨hj, hwait⟩, if_neg (not_lt.mpr hpc)]

theorem endStep_of_stay (h : s.jumped = true ∨ s.wait ≠ .none) : s.endStep = s.refresh := by
  have hstay : ¬(s.jumped = false ∧ s.wait = .none) := fun ⟨hj, hwait⟩ => h.elim (by simp [hj]) (absurd hwait)
  rw [State.endStep, if_neg (not_not.mpr hrun), if_neg hstay]

end

/-- Settles O38: each clause is the equation of `State.endStep` in its case, with the frame of what is left. -/
theorem endOfStep : Obligations.EndOfStep := by
  intro s
  refine ⟨fun h => ?stopped, fun hrun hj hwait hpc => ?inside, fun hrun hj hwait hpc => ?beyond, fun hrun h => ?stay⟩
  case stopped => rw [endStep_of_stopped h]; exact frame_refl s
  case inside =>
    have hadvance : (s.pc + 2).toNat = s.pc.toNat + 2 := by bv_omega
    rw [endStep_of_inside hrun hj hwait hpc]
    exact ⟨hadvance, rfl, frame_advance hj _⟩
  case beyond => rw [endStep_of_beyond hrun hj hwait hpc]; exact ⟨rfl, frame_status s _⟩
  case stay => rw [endStep_of_stay hrun h]; exact ⟨rfl, rfl, frame_refresh s⟩

/-! ### Steps that stop -/

/-- R320. -/
theorem toNat_countDown (t : Byte) : (countDown t).toNat = t.toNat - 1 := by
  unfold countDown
  split <;> bv_omega

/-- R303, R302, D26: of a step that stops before its end the timer tick stands, and nothing else but the new status. -/
theorem tick_then_stop (s : State) (st : Status) {t : State} (ht : t = { s.takeArgs.tick with status := st }) :
    t.dt.toNat = s.dt.toNat - 1 ∧ t.st.toNat = s.st.toNat - 1 ∧ t.tone = decide (s.st ≠ 0) ∧
      Frame [.status, .dt, .st, .tone, .args, .inputs, .steps] s t := by
  subst ht
  have htone : (s.st != 0) = decide (s.st ≠ 0) := by simp [bne, Bool.beq_eq_decide_eq]
  exact ⟨toNat_countDown s.dt, toNat_countDown s.st, htone,
    frame_trans (frame_tick s) (frame_status _ st) (by simp) (by simp)⟩

theorem fetch_of_odd {s : State} (h : s.pc.toNat % 2 = 1) : s.fetch hardware = .error .misalignedFetch := by
  rw [fetch_eq, if_pos h]

theorem fetch_of_beyond {s : State} (heven : s.pc.toNat % 2 = 0) (h : s.pc.toNat + 1 > 0xFFF) :
    s.fetch hardware = .error .outOfBounds := by
  rw [fetch_eq, if_neg (by omega), if_pos h]

theorem fetch_of_even_inside {s : State} (heven : s.pc.toNat % 2 = 0) (h : s.pc.toNat + 1 ≤ 0xFFF) :
    s.fetch hardware = .ok (wordOfBytes (s.byte hardware s.pc.toNat) (s.byte hardware (s.pc.toNat + 1))) := by
  rw [fetch_eq, if_neg (by omega), if_neg (by omega)]

/-- Settles O40: the two checks of the fetch, alignment first. -/
theorem fetchErrorsStop : Obligations.FetchErrorsStop := by
  intro s hrun hwait
  refine ⟨fun hodd => ?_, fun heven hpc => ?_⟩
  · exact ⟨_, step_of_fetch_error hrun hwait (fetch_of_odd hodd), rfl, tick_then_stop s _ rfl⟩
  · exact ⟨_, step_of_fetch_error hrun hwait (fetch_of_beyond heven hpc), rfl, tick_then_stop s _ rfl⟩

/-- Settles O41: the decoder's rejection, whatever its name, ends the step after the tick. -/
theorem invalidWordStops : Obligations.InvalidWordStops := fun s _ _ hrun hwait hf hd =>
  ⟨_, step_of_invalid hrun hwait hf hd, rfl, tick_then_stop s _ rfl⟩

/-- R33: the returned status does not depend on the tone bit. -/
theorem output_fst_tone (s : State) (b : Bool) : (State.output { s with tone := b }).1 = s.output.1 := by
  unfold State.output
  cases s.status <;> rfl

/-- Settles O42: a stopped machine's step writes the recorded tone alone. -/
theorem stoppedMachineStays : Obligations.StoppedMachineStays := fun s h =>
  ⟨_, step_of_stopped h, rfl, output_fst_tone s false, frame_tone s false⟩

/-! ### Steps that run an instruction -/

/-- Settles O36: the fetch passes both checks, and `exec` always answers, so the step ends with its answer. -/
theorem stepRunsDecodedInstr : Obligations.StepRunsDecodedInstr := by
  intro s i hrun hwait heven hpc hd
  obtain ⟨t, ht⟩ := exec_next i s.takeArgs.tick
  rw [step_of_exec hrun hwait (fetch_of_even_inside heven hpc) hd ht, ht]

/-- Settles O14: HALT's status is no longer running, so phases 5 to 7 do nothing. -/
theorem haltStopsOnItsWord : Obligations.HaltStopsOnItsWord := by
  refine ⟨fun s => ⟨_, rfl, rfl, frame_status s .halted⟩, fun s hrun hwait hf => ?_⟩
  have hend : s.takeArgs.tick.halt.endStep = s.takeArgs.tick.halt := endStep_of_stopped nofun
  have hstep : step s = .next s.takeArgs.tick.halt := hend ▸ step_of_exec hrun hwait hf (i := .halt) rfl rfl
  obtain ⟨hdt, hst, htone, hframe⟩ := tick_then_stop s .halted (t := s.takeArgs.tick.halt) rfl
  exact ⟨_, hstep, rfl, htone, hdt, hst, hframe⟩

/-- Settles O15: a SYS word decodes by `decode_encode`, and the end of the step finds the ticked state as it was. -/
theorem sysOnlyAdvances : Obligations.SysOnlyAdvances := by
  intro nnn s
  refine ⟨⟨s, rfl, frame_refl s⟩, fun hrun hwait hj hf h0 hE0 hEE => ?_⟩
  have hd : decode (0x0#4 ++ nnn) = .ok (.sys nnn) := decode_encode (i := .sys nnn) (wf_sys.mpr ⟨h0, hE0, hEE⟩)
  obtain ⟨heven, hle, -⟩ := pc_of_fetch_ok hf
  refine ⟨_, step_of_exec hrun hwait hf hd rfl, fun hpc => ?advance, fun hpc => ?beyond⟩
  case advance =>
    have hinside : s.pc.toNat + 2 ≤ 0xFFF := by bv_omega
    rw [endStep_of_inside (s := s.takeArgs.tick) hrun hj hwait hinside]
    exact ⟨rfl, frame_trans (frame_tick s) (frame_advance (s := s.takeArgs.tick) hj _) (by simp) (by simp)⟩
  case beyond =>
    obtain ⟨-, -, -, hframe⟩ := tick_then_stop s (.error .outOfBounds s.pc) rfl
    rw [endStep_of_beyond (s := s.takeArgs.tick) hrun hj hwait (by simp [hpc])]
    exact ⟨congrArg _ hpc, hframe⟩

/-! ### Errors of an instruction (R102, R303) -/

/-- Settles O48: of the ways an instruction can change the status, only an error it has a cause to raise leaves an error. -/
theorem errorsArePrecise : Obligations.ErrorsArePrecise := by
  intro i s t k e hrun h he
  rcases exec_status_cases h with hst | rfl | ⟨k', hk, rfl⟩
  · exact absurd he (safe_of_running (hst.trans hrun) k e)
  · exact absurd he (safe_halt s k e)
  · cases he
    refine ⟨rfl, frame_status s _, ?_⟩
    cases k with
    | stackOverflow => exact .inl ⟨rfl, hk⟩
    | stackUnderflow => exact .inr (.inl ⟨rfl, hk⟩)
    | outOfBounds => exact .inr (.inr ⟨rfl, hk⟩)
    | invalidInstruction | loadTooLarge | misalignedFetch => exact hk.elim

/-! ### The random byte (D18) -/

/-- `s` with another random byte for the present step. -/
def withRnd (s : State) (b : Byte) : State := { s with args := { s.args with rnd := b } }

/-- An answer with its next state changed by `f`. -/
def mapNext (f : State → State) : Answer → Answer
  | .next t => .next (f t)
  | .fault r => .fault r
  | .refused r => .refused r

section
variable (s : State) (b : Byte)

theorem pc_withRnd : (withRnd s b).pc = s.pc := rfl
theorem reg_withRnd (x : Reg) : (withRnd s b).reg x = s.reg x := rfl
theorem base_withRnd : (withRnd s b).base = s.base := rfl
theorem regsUpTo_withRnd (x : Reg) : (withRnd s b).regsUpTo x = s.regsUpTo x := rfl

theorem skipIf_withRnd (c : Bool) : (withRnd s b).skipIf c = withRnd (s.skipIf c) b := by cases c <;> rfl

theorem push_withRnd (w : Word) : (withRnd s b).push hardware w = (s.push hardware w).map (withRnd · b) := by
  rcases push_cases hardware s w with ⟨hsp, e⟩ | ⟨hsp, e⟩ <;> rw [e]
  · exact push_of_ne (withRnd s b) w hsp
  · exact push_of_full (withRnd s b) w hsp

theorem pop_withRnd : (withRnd s b).pop = s.pop.map fun (a, t) => (a, withRnd t b) := by
  rcases pop_cases s with ⟨k, hsp, e⟩ | ⟨hsp, e⟩ <;> rw [e]
  · exact pop_of_succ (withRnd s b) k hsp
  · exact pop_of_empty (withRnd s b) hsp

theorem placeBytes_withRnd (p : Config.Params) (a : Nat) (vs : List Byte) :
    (withRnd s b).placeBytes p a vs = withRnd (s.placeBytes p a vs) b := by
  induction vs generalizing s a with
  | nil => rfl
  | cons v vs ih => exact ih (s.setByte p a v) (a + 1)

theorem setRegsFrom_withRnd (r : Nat) (vs : List Byte) : (withRnd s b).setRegsFrom r vs = withRnd (s.setRegsFrom r vs) b := by
  induction vs generalizing s r with
  | nil => rfl
  | cons v vs ih => exact ih (s.setReg (BitVec.ofNat 4 r) v) (r + 1)

theorem storeAtI_withRnd (vs : List Byte) :
    (withRnd s b).storeAtI hardware vs = (s.storeAtI hardware vs).map (withRnd · b) := by
  rw [storeAtI_eq _ (.inl rfl), storeAtI_eq _ (.inl rfl), placeBytes_withRnd, base_withRnd]
  split <;> rfl

theorem loadAtI_withRnd (n : Nat) : (withRnd s b).loadAtI hardware n = s.loadAtI hardware n := by
  rw [loadAtI_eq, loadAtI_eq]
  rfl

/-- R100: an instruction other than RND commutes with a change of the random byte. -/
theorem exec_withRnd {i : Instr} (hi : ∀ x nn, i ≠ .rnd x nn) : exec i (withRnd s b) = mapNext (withRnd · b) (exec i s) := by
  cases i with
  | rnd x nn => exact absurd rfl (hi x nn)
  | seImm | sneImm | seReg | sneReg | skp | sknp => exact congrArg Host.Outcome.next (skipIf_withRnd s b _)
  | call nnn =>
    simp only [exec, execCall, execCallWith, pc_withRnd, push_withRnd]
    cases s.push hardware s.pc <;> rfl
  | ret =>
    simp only [exec, execRet, pop_withRnd]
    cases s.pop <;> rfl
  | ldB x =>
    simp only [exec, execLdB, execLdBWith, reg_withRnd, storeAtI_withRnd]
    cases s.storeAtI hardware (decimalDigits (s.reg x)) <;> rfl
  | storeRegs x =>
    simp only [exec, execStoreRegs, execStoreRegsWith, regsUpTo_withRnd, storeAtI_withRnd]
    cases s.storeAtI hardware (s.regsUpTo x) <;> rfl
  | loadRegs x =>
    simp only [exec, execLoadRegs, execLoadRegsWith, loadAtI_withRnd, setRegsFrom_withRnd]
    cases s.loadAtI hardware (x.toNat + 1) <;> rfl
  | drw x y n =>
    simp only [exec, execDrw, execDrwWith, loadAtI_withRnd]
    cases s.loadAtI hardware n.toNat <;> rfl
  | _ => rfl

end

/-- Settles O49: `exec_withRnd` on an answer that is a next state. -/
theorem onlyRndReadsRandomByte : Obligations.OnlyRndReadsRandomByte := by
  intro i s t b hi h
  change exec i (withRnd s b) = .next (withRnd t b)
  rw [exec_withRnd s b hi, h]
  rfl

end Sys2Proof.Proofs
end

section
/-! PROOF. The register file and ALU (spec/41_alu.md R119 to R131): what an instruction does whose whole effect is one register
write, or a result and its flag outcome, and the exact arithmetic of the results and the flags. -/

namespace Sys2Proof.Proofs

open Sys2Proof Sys2Proof.Machine Sys2Proof.Safety

/-! ### The two shapes of an ALU instruction (R119) -/

theorem regsExcept_setReg (s : State) (x : Reg) (b : Byte) : RegsExcept [x] s (s.setReg x b) := by
  intro r hr
  rw [reg_setReg, if_neg (List.ne_of_not_mem_cons hr)]

/-- The instructions without a flag: one register is written. -/
theorem setsReg_of_exec {i : Instr} {s : State} {x : Reg} {b : Byte} (h : exec i s = .next (s.setReg x b)) :
    SetsReg i s x b := by
  refine ⟨_, h, ?_, regsExcept_setReg s x b, frame_regs s _⟩
  rw [reg_setReg, if_pos rfl]

/-- The instructions with a flag: the result is written, then the flag outcome. -/
theorem setsRegAndFlag_of_exec {i : Instr} {s : State} {x : Reg} {b : Byte} {f : Bool} {result : Nat} {flag : Prop}
    (h : exec i s = .next (s.setRegFlag x b f)) (hb : b.toNat = result) (hf : f = true ↔ flag) :
    SetsRegAndFlag i s x result flag := by
  refine ⟨_, h, fun hx => ?_, fun hflag => ?_, fun hflag => ?_, regsExcept_setRegFlag s x b f, frame_setRegFlag s x b f⟩
  · rw [reg_setRegFlag_of_ne_vf s b f hx, hb]
  · rw [reg_setRegFlag_vf, hf.mpr hflag]
    rfl
  · rw [reg_setRegFlag_vf, Bool.eq_false_iff.mpr (mt hf.mp hflag)]
    rfl

/-! ### The results and the flag outcomes as numbers (R121, R126 to R130) -/

theorem toNat_sumByte (a b : Byte) : (sumByte a b).toNat = (a.toNat + b.toNat) % 256 := BitVec.toNat_ofNat ..

theorem carry_iff {a b : Byte} : carry a b = true ↔ a.toNat + b.toNat > 255 := decide_eq_true_iff

/-- The integer difference modulo 256, without a negative number: a byte plus 256 exceeds every byte. -/
theorem toNat_diffByte (a b : Byte) : (diffByte a b).toNat = (a.toNat + 256 - b.toNat) % 256 := by
  have hb := b.isLt
  rw [diffByte, BitVec.toNat_ofInt]
  omega

theorem borrow_iff {minuend subtrahend : Byte} :
    borrow minuend subtrahend = true ↔ subtrahend.toNat > minuend.toNat := decide_eq_true_iff

theorem bitOutRight_iff {b : Byte} : bitOutRight b = true ↔ b.toNat % 2 = 1 := by
  rw [← Bool.toNat_eq_one, toNat_bitOutRight]

theorem bitOutLeft_iff {b : Byte} : bitOutLeft b = true ↔ b.toNat ≥ 128 := by
  have hb := b.isLt
  rw [← Bool.toNat_eq_one, toNat_bitOutLeft]
  omega

/-! ### The instructions that write no flag (R120 to R125, R131) -/

/-- Settles O7: the word is the encoding of LD Vx, nn, whose meaning is one register write. -/
theorem loadImmediateSetsVx : Obligations.LoadImmediateSetsVx := fun x nn _ =>
  ⟨decode_encode (i := .ldImm x nn) rfl, setsReg_of_exec rfl⟩

/-- Settles O8: the byte written is the exact sum modulo 256. -/
theorem addImmediateWrapsNoFlag : Obligations.AddImmediateWrapsNoFlag := by
  intro x nn s
  have hsum : sumByte (s.reg x) nn = BitVec.ofNat 8 (((s.reg x).toNat + nn.toNat) % 256) := by
    rw [← toNat_sumByte, BitVec.ofNat_toNat, BitVec.setWidth_eq]
  exact hsum ▸ setsReg_of_exec rfl

/-- Settles O9: each of the four is one register write. -/
theorem copyAndBitwiseSetVx : Obligations.CopyAndBitwiseSetVx := fun _ _ _ =>
  ⟨setsReg_of_exec rfl, setsReg_of_exec rfl, setsReg_of_exec rfl, setsReg_of_exec rfl⟩

/-- Settles O10: RND is one register write, of the byte in `args` masked. -/
theorem randomByteMasked : Obligations.RandomByteMasked := fun _ _ _ => setsReg_of_exec rfl

/-! ### The instructions that write the flag (R126 to R130) -/

/-- Settles O11: the flag is written last, so it stays at X = 15, and both operands are read before it (D7). -/
theorem addSetsCarry : Obligations.AddSetsCarry := fun _ _ _ =>
  setsRegAndFlag_of_exec rfl (toNat_sumByte ..) carry_iff

/-- Settles O12: SUB and SUBN are one difference and one borrow, with the operands' roles exchanged (D5). -/
theorem subtractSetsBorrow : Obligations.SubtractSetsBorrow := fun _ _ _ =>
  ⟨setsRegAndFlag_of_exec rfl (toNat_diffByte ..) borrow_iff, setsRegAndFlag_of_exec rfl (toNat_diffByte ..) borrow_iff⟩

/-- Settles O13: the operand of a shift is `V[X]` on this hardware (`shiftOperand_hardware`, D6). -/
theorem shiftsSetBitOut : Obligations.ShiftsSetBitOut := fun _ _ _ =>
  ⟨setsRegAndFlag_of_exec rfl (toNat_shiftedRight _) bitOutRight_iff,
    setsRegAndFlag_of_exec rfl (toNat_shiftedLeft _) bitOutLeft_iff⟩

end Sys2Proof.Proofs
end

section
/-! PROOF. Control flow (spec/42_control_flow.md R140 to R147): the jumps, the call and its return, and the skips. Each instruction
is a jump, after at most one change of the stack. -/

namespace Sys2Proof.Proofs

open Sys2Proof Sys2Proof.Machine Sys2Proof.Safety

/-! ### Frames of a jump and of the stack (R103, R26) -/

theorem frame_jump (s : State) (w : Word) : Frame [.pc, .jumped] s (s.jump w) := by
  intro part hpart
  cases part with
  | pc | jumped => simp at hpart
  | regs | mem => exact fun _ => rfl
  | _ => exact rfl

theorem frame_stack_sp (s : State) (stack : List Word) (sp : Nat) : Frame [.stack, .sp] s { s with stack := stack, sp := sp } := by
  intro part hpart
  cases part with
  | stack | sp => simp at hpart
  | regs | mem => exact fun _ => rfl
  | _ => exact rfl

/-- A piece of state that may change but has its old value again need not be listed. -/
theorem frame_drop_kept {s t : State} {part : Part} {c : List Part} (h : Frame (part :: c) s t) (hkept : Part.Kept s t part) :
    Frame c s t := by
  intro q hq
  by_cases hqp : q = part
  · exact hqp ▸ hkept
  · exact h q fun hmem => (List.mem_cons.mp hmem).elim hqp hq

/-- R142: a pop leaves the entries as they are. -/
theorem frame_sp (s : State) (sp : Nat) : Frame [.sp] s { s with sp := sp } := frame_drop_kept (frame_stack_sp s s.stack sp) rfl

/-! ### The jumps (R140, R147) -/

theorem toNat_addr16 (nnn : Addr12) : (addr16 nnn).toNat = nnn.toNat :=
  BitVec.toNat_setWidth_of_le (by decide)

/-- R147: the sum of the operand and `V[0]` is exact, since it is below 65536. -/
theorem toNat_addr16_add_byte16 (nnn : Addr12) (b : Byte) : (addr16 nnn + byte16 b).toNat = nnn.toNat + b.toNat := by
  have hbyte : (byte16 b).toNat = b.toNat := BitVec.toNat_setWidth_of_le (by decide)
  have hnnn := nnn.isLt
  have hb := b.isLt
  rw [BitVec.toNat_add, toNat_addr16, hbyte]
  omega

/-- Settles O16: each of the two is one jump, to a target that is an exact number (D11). -/
theorem jumpsStoreTarget : Obligations.JumpsStoreTarget := fun nnn s =>
  ⟨⟨_, rfl, toNat_addr16 nnn, rfl, frame_jump s _⟩, ⟨_, rfl, toNat_addr16_add_byte16 nnn (s.reg 0), rfl, frame_jump s _⟩⟩

/-! ### The call and the return (R141, R142) -/

theorem exec_call_of_room (nnn : Addr12) {s : State} (h : s.sp < 16) :
    exec (.call nnn) s = .next (State.jump { s with stack := s.stack.set s.sp s.pc, sp := s.sp + 1 } (addr16 nnn)) :=
  (exec_eq_execWith _ s).trans (callWith_of_room hardware s nnn h.ne)

theorem exec_call_of_full (nnn : Addr12) {s : State} (h : s.sp = 16) : exec (.call nnn) s = .next (s.raise .stackOverflow) :=
  (exec_eq_execWith _ s).trans (callWith_of_full hardware s nnn h)

theorem exec_ret_of_succ {s : State} {k : Nat} (h : s.sp = k + 1) :
    exec .ret s = .next (State.jump { s with sp := k } (s.entry k + 2)) := by
  simp only [exec, execRet, pop_of_succ s k h]

theorem exec_ret_of_empty {s : State} (h : s.sp = 0) : exec .ret s = .next (s.raise .stackUnderflow) := by
  simp only [exec, execRet, pop_of_empty s h]

theorem raises_of_exec {i : Instr} {s : State} {k : ErrorKind} (h : exec i s = .next (s.raise k)) : Raises i s k :=
  ⟨_, h, rfl, frame_status s _⟩

/-- Settles O17: a push and a jump, and the entry pushed lies inside the stack because SP is below its size. -/
theorem callPushesOrOverflows : Obligations.CallPushesOrOverflows := by
  intro nnn s ⟨hlen, _⟩
  refine ⟨fun hroom => ?room, fun hfull => raises_of_exec (exec_call_of_full nnn hfull)⟩
  case room =>
    have hfits : StackFits hardware { s with stack := s.stack.set s.sp s.pc, sp := s.sp + 1 } :=
      ⟨(List.length_set ..).trans hlen, hroom⟩
    exact ⟨_, exec_call_of_room nnn hroom, toNat_addr16 nnn, rfl, rfl, hfits, entry_set s s.sp s.pc (hlen ▸ hroom),
      frame_trans (frame_stack_sp s _ _) (frame_jump _ _) (by simp) (by simp)⟩

/-- Settles O18: a pop writes SP alone, and the jump goes past the word whose address was popped (C3). -/
theorem retPopsOrUnderflows : Obligations.RetPopsOrUnderflows := by
  intro s _
  refine ⟨fun k hsp => ?entry, fun hempty => raises_of_exec (exec_ret_of_empty hempty)⟩
  case entry =>
    exact ⟨_, exec_ret_of_succ hsp, rfl, rfl, rfl, frame_trans (frame_sp s k) (frame_jump _ _) (by simp) (by simp)⟩

/-- Settles O19: the return pops the entry that the call pushed, which is the call's own address. -/
theorem callThenRetComesBack : Obligations.CallThenRetComesBack := by
  intro nnn s hfits hroom
  obtain ⟨t, hcall, -, -, htsp, htfits, htentry, htframe⟩ := (callPushesOrOverflows nnn s hfits).1 hroom
  obtain ⟨u, hret, hupc, -, husp, huframe⟩ := (retPopsOrUnderflows t htfits).1 s.sp htsp
  have hpc : u.pc = s.pc + 2 := by rw [hupc, htentry, if_pos rfl]
  have hstack : u.stack = t.stack := huframe .stack (by decide)
  have hentry (k : Nat) (hk : k ≠ s.sp) : u.entry k = s.entry k := by
    rw [State.entry, hstack]
    exact (htentry k).trans (if_neg hk)
  have hframe : Frame [.sp, .pc, .jumped, .stack] s u := frame_trans htframe huframe (by simp) (by simp)
  exact ⟨t, u, hcall, hret, hpc, husp, hentry, frame_drop_kept hframe husp⟩

/-! ### The skips (R143 to R146) -/

/-- The shape of every skip: a jump to `pc + 4` on a condition. -/
theorem skipsIf_of_exec {i : Instr} {s : State} {b : Bool} {c : Prop} (h : exec i s = .next (s.skipIf b)) (hb : b = true ↔ c) :
    SkipsIf i s c := by
  refine ⟨_, h, ?_⟩
  rcases skipIf_cases s b with ⟨htrue, e⟩ | ⟨hfalse, e⟩ <;> rw [e]
  · exact ⟨fun _ => ⟨rfl, rfl, frame_jump s _⟩, fun hc => absurd (hb.mp htrue) hc⟩
  · exact ⟨fun hc => absurd (hb.mpr hc) (Bool.eq_false_iff.mp hfalse), fun _ => frame_refl s⟩

/-- Settles O20: the two conditions are equality with the immediate and its negation. -/
theorem skipsOnImmediate : Obligations.SkipsOnImmediate := fun _ _ _ =>
  ⟨skipsIf_of_exec rfl beq_iff_eq, skipsIf_of_exec rfl bne_iff_ne⟩

/-- Settles O21: 5xy0 skips on equality on this hardware (`seRegCondition_hardware`, D9), 9xy0 on inequality. -/
theorem skipsOnRegisters : Obligations.SkipsOnRegisters := fun _ _ _ =>
  ⟨skipsIf_of_exec rfl (by rw [seRegCondition_hardware, beq_iff_eq]), skipsIf_of_exec rfl bne_iff_ne⟩

end Sys2Proof.Proofs
end

section
/-! PROOF. The address register and the memory transfers (spec/43_address_memory.md R160 to R165): what a block store leaves in
memory, what a block load leaves in the registers, and the range check that comes before either (R44). -/

namespace Sys2Proof.Proofs

open Sys2Proof Sys2Proof.Machine Sys2Proof.Safety

/-! ### A block of bytes put in memory (R44) -/

theorem byte_placeBytes_inside {p : Config.Params} (s : State) {a k : Nat} {vs : List Byte} (hin : a + vs.length ≤ 0x1000)
    (hk : k < vs.length) : (s.placeBytes p a vs).byte p (a + k) = vs.getD k 0 := by
  rw [byte_placeBytes, if_pos (by omega), Nat.add_sub_cancel_left]

theorem bytesExcept_placeBytes (s : State) (a : Nat) (vs : List Byte) :
    BytesExcept a vs.length s (s.placeBytes hardware a vs) := by
  intro c hc
  rw [byte_placeBytes, if_neg (by tauto)]

theorem frame_placeBytes (p : Config.Params) (s : State) (a : Nat) (vs : List Byte) : Frame [.mem] s (s.placeBytes p a vs) :=
  placeBytes_eq s a vs ▸ frame_mem s _

/-! ### The stores (R163, R164) -/

/-- The digits are below 256, so none is truncated to its byte. -/
theorem toNat_decimalDigits (v : Byte) :
    ((decimalDigits v).getD 0 0).toNat = v.toNat / 100 ∧ ((decimalDigits v).getD 1 0).toNat = v.toNat / 10 % 10 ∧
      ((decimalDigits v).getD 2 0).toNat = v.toNat % 10 := by
  have hv := v.isLt
  simp only [decimalDigits, List.getD_cons_zero, List.getD_cons_succ, BitVec.toNat_ofNat]
  omega

/-- Settles O23: the three digits are put at `base` and above, or the range check raises the error before the first write. -/
theorem decimalStoreOrError : Obligations.DecimalStoreOrError := by
  intro x s
  obtain ⟨t, hexec⟩ := exec_next (.ldB x) s
  rcases ldB_cases hexec with ⟨hin, rfl⟩ | ⟨hbeyond, rfl⟩
  · refine ⟨fun _ => ⟨_, hexec, ?_⟩, fun h => absurd h (by omega)⟩
    have hbyte (k : Nat) (hk : k < 3) := byte_placeBytes_inside (p := hardware) s (vs := decimalDigits (s.reg x)) hin hk
    obtain ⟨hhundreds, htens, hones⟩ := toNat_decimalDigits (s.reg x)
    refine ⟨?_, ?_, ?_, bytesExcept_placeBytes s s.base (decimalDigits (s.reg x)), frame_placeBytes hardware s _ _⟩
    · rw [← hhundreds, ← hbyte 0 (by decide), Nat.add_zero]
    · rw [hbyte 1 (by decide), htens]
    · rw [hbyte 2 (by decide), hones]
  · exact ⟨fun h => absurd h (by omega), fun _ => raises_of_exec hexec⟩

/-- Settles O24: the bytes put at `base` and above are `V[0]` to `V[X]` in order (`regsUpTo_getD`), and `I` is not advanced on this
hardware. -/
theorem blockStoreOrError : Obligations.BlockStoreOrError := by
  intro x s
  obtain ⟨t, hexec⟩ := exec_next (.storeRegs x) s
  have hlen := regsUpTo_length s x
  rcases storeRegs_cases hexec with ⟨hin, rfl⟩ | ⟨hbeyond, rfl⟩
  · refine ⟨fun _ => ⟨_, hexec, fun k hk => ?_, ?_, frame_placeBytes hardware s _ _⟩, fun h => absurd h (by omega)⟩
    · rw [byte_placeBytes_inside s (by omega) (by omega), regsUpTo_getD s x k hk]
    · exact hlen ▸ bytesExcept_placeBytes s s.base (s.regsUpTo x)
  · exact ⟨fun h => absurd h (by omega), fun _ => raises_of_exec hexec⟩

/-! ### The load (R165) -/

theorem frame_setRegsFrom (s : State) (r : Nat) (bs : List Byte) : Frame [.regs] s (s.setRegsFrom r bs) :=
  setRegsFrom_eq s r bs ▸ frame_regs s _

/-- `V[0]` to `V[x]` given the values of `f` in order: `x` is at most 15, so no write goes past the last register. -/
theorem reg_setRegsFrom_range (s : State) (x k : Reg) (f : Nat → Byte) :
    (s.setRegsFrom 0 ((List.range (x.toNat + 1)).map f)).reg k = if k.toNat ≤ x.toNat then f k.toNat else s.reg k := by
  have hx := x.isLt
  have hlen : ((List.range (x.toNat + 1)).map f).length = x.toNat + 1 := by rw [List.length_map, List.length_range]
  rw [reg_setRegsFrom s 0 _ (by omega), hlen]
  by_cases hk : k.toNat ≤ x.toNat
  · rw [if_pos (by omega), if_pos hk, Nat.sub_zero, List.getD_eq_getElem?_getD, List.getElem?_map, List.getElem?_range (by omega)]
    rfl
  · rw [if_neg (by omega), if_neg hk]

/-- Settles O25: the registers written are `V[0]` to `V[X]`, each with the byte at its own distance from `base`. -/
theorem blockLoadOrError : Obligations.BlockLoadOrError := by
  intro x s
  obtain ⟨t, hexec⟩ := exec_next (.loadRegs x) s
  rcases loadRegs_cases hexec with ⟨hin, rfl⟩ | ⟨hbeyond, rfl⟩
  · exact ⟨fun _ => ⟨_, hexec, fun k => reg_setRegsFrom_range s x k _, frame_setRegsFrom s _ _⟩, fun h => absurd h (by omega)⟩
  · exact ⟨fun h => absurd h (by omega), fun _ => raises_of_exec hexec⟩

/-! ### The address register (R160 to R162) -/

theorem toNat_add_byte16 (w : Word) (b : Byte) : (w + byte16 b).toNat = (w.toNat + b.toNat) % 65536 := by
  have hbyte : (byte16 b).toNat = b.toNat := BitVec.toNat_setWidth_of_le (by decide)
  rw [BitVec.toNat_add, hbyte]

/-- R162: the glyph table begins at address 0 on this hardware (D2). -/
theorem toNat_glyphAddress_hardware (b : Byte) : (glyphAddress hardware (lowNibble b)).toNat = 5 * (b.toNat % 16) :=
  (toNat_glyphAddress hardware b (by decide)).trans (Nat.zero_add _)

/-- Settles O22: each of the three is one write of `I`, of a value that is an exact number (D15, D17). -/
theorem addressRegisterWrites : Obligations.AddressRegisterWrites := fun nnn x s =>
  ⟨⟨_, rfl, toNat_addr16 nnn, frame_i s _⟩, ⟨_, rfl, toNat_add_byte16 s.i (s.reg x), frame_i s _⟩,
    ⟨_, rfl, toNat_glyphAddress_hardware (s.reg x), frame_i s _⟩⟩

end Sys2Proof.Proofs
end

section
/-! PROOF. The display (spec/44_display.md R180, R181): what a blit does to the pixels and to the collision, said once as `Inverts`
and composed byte by byte and row by row, and from it what DRW leaves on the screen and in VF. -/

namespace Sys2Proof.Proofs

open Sys2Proof Sys2Proof.Machine Sys2Proof.Safety

theorem frame_fb (s : State) (f : Framebuffer) : Frame [.fb] s { s with fb := f } := by
  intro part hpart
  cases part with
  | fb => simp at hpart
  | regs | mem => exact fun _ => rfl
  | _ => exact rfl

/-! ### The clear (R180) -/

theorem pixel_replicate_zero (c : Fin 64) (r : Fin 32) :
    Framebuffer.pixel (Vector.replicate 32 (Vector.replicate 8 0)) c r = false := by
  simp [Framebuffer.pixel]

/-- Settles O28: the framebuffer written is all zero bytes, and it is the one piece written. -/
theorem clsClearsEveryPixel : Obligations.ClsClearsEveryPixel :=
  ⟨decode_encode (i := .cls) rfl, fun s => ⟨_, rfl, fun r j => by simp [State.fbByte], pixel_replicate_zero, frame_fb s _⟩⟩

/-! ### Blits, composed (R181) -/

/-- The pixels of `L`, and no others, are inverted from the drawing `d` to `d'`, and the collision is noted if one of them was lit. -/
def Inverts (L : Fin 64 → Fin 32 → Prop) (d d' : Drawing) : Prop :=
  (∀ c r, L c r → Framebuffer.pixel d'.1 c r = !Framebuffer.pixel d.1 c r) ∧
  (∀ c r, ¬L c r → Framebuffer.pixel d'.1 c r = Framebuffer.pixel d.1 c r) ∧
  (d'.2 = true ↔ d.2 = true ∨ ∃ c r, L c r ∧ Framebuffer.pixel d.1 c r = true)

section
variable {L L' : Fin 64 → Fin 32 → Prop} {d d' d'' : Drawing}

theorem Inverts.of_iff (h : Inverts L d d') (hL : ∀ c r, L c r ↔ L' c r) : Inverts L' d d' := by
  have hext : L = L' := funext fun c => funext fun r => propext (hL c r)
  exact hext ▸ h

theorem inverts_nothing (d : Drawing) : Inverts (fun _ _ => False) d d :=
  ⟨fun _ _ => False.elim, fun _ _ _ => rfl, by simp⟩

/-- Two blits in turn that share no pixel: the second finds its pixels as they were before the first. -/
theorem Inverts.trans (h : Inverts L d d') (h' : Inverts L' d' d'') (hdisj : ∀ c r, L c r → ¬L' c r) :
    Inverts (fun c r => L c r ∨ L' c r) d d'' := by
  obtain ⟨hin, hout, hhit⟩ := h
  obtain ⟨hin', hout', hhit'⟩ := h'
  have hkept (c : Fin 64) (r : Fin 32) (hc : L' c r) : Framebuffer.pixel d'.1 c r = Framebuffer.pixel d.1 c r :=
    hout c r fun hL => hdisj c r hL hc
  refine ⟨fun c r hc => ?_, fun c r hc => ?_, ?_⟩
  · rcases hc with hc | hc
    · rw [hout' c r (hdisj c r hc), hin c r hc]
    · rw [hin' c r hc, hkept c r hc]
  · rw [not_or] at hc
    rw [hout' c r hc.2, hout c r hc.1]
  · have hsecond : (∃ c r, L' c r ∧ Framebuffer.pixel d'.1 c r = true) ↔ ∃ c r, L' c r ∧ Framebuffer.pixel d.1 c r = true :=
      exists₂_congr fun c r => and_congr_right fun hc => by rw [hkept c r hc]
    simp only [hhit', hhit, hsecond, or_and_right, exists_or, or_assoc]

end

/-! ### One byte, one row and every row of the sprite (R181) -/

theorem inverts_blitByte (row : Fin 32) (j : Fin 8) (m : Byte) (d : Drawing) :
    Inverts (fun c r => r = row ∧ MaskLit j m c) d (blitByte row j m d) := by
  refine ⟨?_, fun c r => pixel_blitByte_dark row r j m d c, ?_⟩
  · rintro c r ⟨rfl, hc⟩
    exact pixel_blitByte_lit r j m d c hc
  · rw [hit_blitByte]
    simp [and_assoc]

/-- The two bytes of a row are neighbours, modulo the width of the row, and so never the same one. -/
theorem inverts_blitRow (x0 : Nat) (hx : x0 < 64) (row : Fin 32) (sprite : Byte) (d : Drawing) :
    Inverts (fun c r => r = row ∧ RowLit x0 sprite c) d (blitRow x0 row sprite d) := by
  refine ((inverts_blitByte row _ _ d).trans (inverts_blitByte row _ _ _) ?_).of_iff fun c r => ?_
  · rintro c r ⟨-, hhi, -⟩ ⟨-, hlo, -⟩
    simp only [Fin.val_ofNat] at hhi hlo
    omega
  · rw [← and_or_left, maskLit_iff_rowLit x0 hx sprite c]

/-- The pixel (c, row) is lit by the sprite rows `sprites`, the first of which is row `r` of the sprite. -/
def RowsLit (x0 y0 r : Nat) (sprites : List Byte) (c : Fin 64) (row : Fin 32) : Prop :=
  ∃ k sprite, sprites[k]? = some sprite ∧ row = Fin.ofNat 32 (y0 + (r + k)) ∧ RowLit x0 sprite c

theorem rowsLit_nil (x0 y0 r : Nat) (c : Fin 64) (row : Fin 32) : ¬RowsLit x0 y0 r [] c row := by
  rintro ⟨k, sprite, hk, -⟩
  simp at hk

theorem rowsLit_cons (x0 y0 r : Nat) (sprite : Byte) (rest : List Byte) (c : Fin 64) (row : Fin 32) :
    RowsLit x0 y0 r (sprite :: rest) c row ↔
      (row = Fin.ofNat 32 (y0 + r) ∧ RowLit x0 sprite c) ∨ RowsLit x0 y0 (r + 1) rest c row := by
  have hindex (k : Nat) : r + 1 + k = r + (k + 1) := by omega
  constructor
  · rintro ⟨k, b, hk, hrow, hb⟩
    cases k with
    | zero => cases hk; exact .inl ⟨hrow, hb⟩
    | succ k => exact .inr ⟨k, b, hk, by rw [hrow, hindex], hb⟩
  · rintro (⟨hrow, hb⟩ | ⟨k, b, hk, hrow, hb⟩)
    · exact ⟨0, sprite, rfl, hrow, hb⟩
    · exact ⟨k + 1, b, hk, by rw [hrow, hindex], hb⟩

/-- A sprite of at most 32 rows meets no framebuffer row twice. -/
theorem inverts_blitRows (x0 y0 : Nat) (hx : x0 < 64) (r : Nat) (sprites : List Byte) (d : Drawing) (hlen : sprites.length ≤ 32) :
    Inverts (RowsLit x0 y0 r sprites) d (blitRows x0 y0 r sprites d) := by
  induction sprites generalizing r d with
  | nil => exact (inverts_nothing d).of_iff fun c row => (iff_false_intro (rowsLit_nil x0 y0 r c row)).symm
  | cons sprite rest ih =>
    rw [List.length_cons] at hlen
    have hrest := ih (r + 1) (blitRow x0 (Fin.ofNat 32 (y0 + r)) sprite d) (by omega)
    refine ((inverts_blitRow x0 hx _ sprite d).trans hrest ?_).of_iff fun c row => (rowsLit_cons x0 y0 r sprite rest c row).symm
    rintro c row ⟨hrow, -⟩ ⟨k, b, hk, hrow', -⟩
    obtain ⟨hk, -⟩ := List.getElem?_eq_some_iff.mp hk
    have hval := congrArg Fin.val (hrow.symm.trans hrow')
    simp only [Fin.val_ofNat] at hval
    omega

/-! ### The drawing of DRW (R181) -/

/-- The bytes DRW reads are the sprite's rows, from its row 0 on. -/
theorem rowsLit_iff_spriteLit (s : State) (x y : Reg) (n : Nibble) (c : Fin 64) (r : Fin 32) :
    RowsLit ((s.reg x).toNat % 64) ((s.reg y).toNat % 32) 0 ((List.range n.toNat).map fun k => s.byte hardware (s.base + k)) c r ↔
      SpriteLit s x y n c r := by
  simp only [RowsLit, SpriteLit, RowLit, List.getElem?_map, Fin.ext_iff, Fin.val_ofNat, Nat.zero_add]
  constructor
  · rintro ⟨k, sprite, hk, hrow, b, hb, hcol, hbit⟩
    obtain ⟨k', hk', rfl⟩ := Option.map_eq_some_iff.mp hk
    obtain ⟨hlt, rfl⟩ := List.getElem?_eq_some_iff.mp hk'
    rw [List.getElem_range] at hbit
    exact ⟨k, b, by simpa using hlt, hb, hbit, hcol, hrow⟩
  · rintro ⟨k, b, hk, hb, hbit, hcol, hrow⟩
    exact ⟨k, _, by rw [List.getElem?_range hk]; rfl, hrow, b, hb, hcol, hbit⟩

/-- R181: DRW of a sprite inside memory inverts the sprite's lit pixels, and VF is whether one of them was lit. -/
theorem exec_drw_inside {x y : Reg} {n : Nibble} {s : State} (hin : s.base + n.toNat ≤ 0x1000) :
    ∃ d : Drawing, exec (.drw x y n) s = .next (State.setReg { s with fb := d.1 } vf (flagByte d.2)) ∧
      Inverts (SpriteLit s x y n) (s.fb, false) d := by
  obtain ⟨t, hexec⟩ := exec_next (.drw x y n) s
  rcases drw_cases hexec with ⟨-, d, hd, rfl⟩ | ⟨hbeyond, -⟩
  · refine ⟨d, hexec, ?_⟩
    have hn := n.isLt
    subst hd
    exact (inverts_blitRows _ _ (Nat.mod_lt _ (by decide)) 0 _ _ (by rw [List.length_map, List.length_range]; omega)).of_iff
      (rowsLit_iff_spriteLit s x y n)
  · omega

/-- Settles O29: the blit inverts the sprite's lit pixels (`exec_drw_inside`), and beside the framebuffer VF alone is written. -/
theorem drawXorsPixels : Obligations.DrawXorsPixels := by
  intro x y n s hin
  obtain ⟨d, hexec, hlit, hdark, hhit⟩ := exec_drw_inside (x := x) (y := y) hin
  have hvf : (State.setReg { s with fb := d.1 } vf (flagByte d.2)).reg vf = flagByte d.2 := by rw [reg_setReg, if_pos rfl]
  refine ⟨_, hexec, hlit, hdark, fun h => ?_, fun h => ?_, regsExcept_setReg { s with fb := d.1 } vf _,
    frame_trans (frame_fb s d.1) (frame_regs _ _) (by simp) (by simp)⟩
  · rw [hvf, hhit.mpr (.inr h)]; rfl
  · have hmiss : d.2 = false := by
      rw [Bool.eq_false_iff]
      exact fun htrue => (hhit.mp htrue).elim nofun h
    rw [hvf, hmiss]; rfl

/-- Settles O30: `drw_cases` splits on the same bound, since `base` is inside memory. -/
theorem drawErrorExactly : Obligations.DrawErrorExactly := by
  intro x y n s hrun
  have hbase := base_lt s
  obtain ⟨t, hexec⟩ := exec_next (.drw x y n) s
  rcases drw_cases hexec with ⟨hin, d, -, rfl⟩ | ⟨hbeyond, rfl⟩
  · exact ⟨fun h => by omega, fun _ => ⟨_, hexec, hrun⟩⟩
  · exact ⟨fun _ => raises_of_exec hexec, fun h => by omega⟩

/-! ### The same drawing again (R181, log 12) -/

/-- The place and the rows of a sprite depend on its two coordinates, on `base` and on memory. -/
theorem spriteLit_congr {s t : State} {x y : Reg} (hx : t.reg x = s.reg x) (hy : t.reg y = s.reg y) (hi : t.i = s.i)
    (hmem : ∀ a, t.byte hardware a = s.byte hardware a) (n : Nibble) : SpriteLit t x y n = SpriteLit s x y n := by
  have hbase : t.base = s.base := by rw [State.base, State.base, hi]
  funext c r
  simp only [SpriteLit, hx, hy, hbase, hmem]

/-- A sprite has a lit pixel somewhere exactly if one of its bytes is not 0. -/
theorem exists_spriteLit_iff (s : State) (x y : Reg) (n : Nibble) :
    (∃ c r, SpriteLit s x y n c r) ↔ ∃ k, k < n.toNat ∧ s.byte hardware (s.base + k) ≠ 0 := by
  constructor
  · rintro ⟨c, r, k, b, hk, -, hbit, -⟩
    exact ⟨k, hk, fun hzero => by simp [hzero] at hbit⟩
  · rintro ⟨k, hk, hne⟩
    obtain ⟨i, hi, hbit⟩ : ∃ i, i < 8 ∧ (s.byte hardware (s.base + k)).getLsbD i = true := by
      by_contra hnone
      exact hne (BitVec.eq_of_getLsbD_eq fun i hi => by simpa using fun hbit => hnone ⟨i, hi, hbit⟩)
    have hflip : 7 - (7 - i) = i := by omega
    exact ⟨Fin.ofNat 64 _, Fin.ofNat 32 _, k, 7 - i, hk, by omega, by rwa [hflip], rfl, rfl⟩

/-- Settles O31: the second DRW draws the same pixels as the first, and finds each of them inverted. -/
theorem drawTwiceRestores : Obligations.DrawTwiceRestores := by
  intro x y n s hx hy hin
  obtain ⟨t, hexec, hlit, hdark, -, -, hregs, hframe⟩ := drawXorsPixels x y n s hin
  have hi : t.i = s.i := hframe .i (by decide)
  have hsame : SpriteLit t x y n = SpriteLit s x y n :=
    spriteLit_congr (hregs x (by simpa using hx)) (hregs y (by simpa using hy)) hi (hframe .mem (by decide)) n
  have hin' : t.base + n.toNat ≤ 0x1000 := by rwa [State.base, hi]
  obtain ⟨u, hexec', hlit', hdark', hone, hzero, -, -⟩ := drawXorsPixels x y n t hin'
  rw [hsame] at hlit' hdark' hone hzero
  have hhit : (∃ c r, SpriteLit s x y n c r ∧ t.pixel c r = true) ↔ ∃ c r, SpriteLit s x y n c r ∧ s.pixel c r = false :=
    exists₂_congr fun c r => and_congr_right fun hc => by rw [hlit c r hc, Bool.not_eq_true']
  rw [hhit] at hone hzero
  have hvf : u.reg vf = 1 ↔ ∃ c r, SpriteLit s x y n c r ∧ s.pixel c r = false :=
    ⟨fun h => by_contra fun hnone => absurd ((hzero hnone).symm.trans h) (by decide), hone⟩
  refine ⟨t, u, hexec, hexec', fun c r => ?restored, hvf, ?zeroOrOne, fun hclear => ?clearScreen⟩
  case restored =>
    by_cases hc : SpriteLit s x y n c r
    · rw [hlit' c r hc, hlit c r hc, Bool.not_not]
    · rw [hdark' c r hc, hdark c r hc]
  case zeroOrOne => exact (Classical.em _).symm.imp hzero hone
  case clearScreen =>
    rw [hvf, ← exists_spriteLit_iff s x y]
    simp only [hclear, and_true]

end Sys2Proof.Proofs
end

section
/-! PROOF. The timer transfers (spec/45_timers.md R200 to R202): each is one write, of a register or of a timer. -/

namespace Sys2Proof.Proofs

open Sys2Proof Sys2Proof.Machine Sys2Proof.Safety

theorem frame_dt (s : State) (b : Byte) : Frame [.dt] s { s with dt := b } := by
  intro part hpart
  cases part with
  | dt => simp at hpart
  | regs | mem => exact fun _ => rfl
  | _ => exact rfl

theorem frame_st (s : State) (b : Byte) : Frame [.st] s { s with st := b } := by
  intro part hpart
  cases part with
  | st => simp at hpart
  | regs | mem => exact fun _ => rfl
  | _ => exact rfl

/-- Settles O32: the read of DT is one register write, and each write of a timer is the write of that field alone. -/
theorem timerTransfers : Obligations.TimerTransfers := fun _ s =>
  ⟨setsReg_of_exec rfl, ⟨_, rfl, rfl, frame_dt s _⟩, ⟨_, rfl, rfl, frame_st s _⟩⟩

end Sys2Proof.Proofs
end

section
/-! PROOF. Input (spec/46_input.md R210 to R213): the key that a skip tests, the wait entered, and the waiting step, which finds
the least key held now that was not held in the recorded mask. -/

namespace Sys2Proof.Proofs

open Sys2Proof Sys2Proof.Machine Sys2Proof.Safety

/-! ### The key skips (R210, R211) -/

theorem toNat_lowNibble (b : Byte) : (lowNibble b).toNat = b.toNat % 16 := by simp [lowNibble]

/-- R210: the bit tested, as a number. -/
theorem keyHeld_lowNibble_iff {s : State} {b : Byte} :
    s.keyHeld (lowNibble b) = true ↔ s.keys.toNat / 2 ^ (b.toNat % 16) % 2 = 1 := by
  rw [State.keyHeld, toNat_lowNibble, BitVec.getLsbD, Nat.testBit_eq_decide_div_mod_eq, decide_eq_true_iff]

theorem not_keyHeld_lowNibble_iff {s : State} {b : Byte} :
    (!s.keyHeld (lowNibble b)) = true ↔ s.keys.toNat / 2 ^ (b.toNat % 16) % 2 = 0 := by
  rw [Bool.not_eq_true', ← Bool.not_eq_true, keyHeld_lowNibble_iff]
  exact Nat.mod_two_ne_one

/-- Settles O33: SKP tests the key's bit, SKNP its negation (D22). -/
theorem skipsOnKey : Obligations.SkipsOnKey := fun _ _ =>
  ⟨skipsIf_of_exec rfl keyHeld_lowNibble_iff, skipsIf_of_exec rfl not_keyHeld_lowNibble_iff⟩

/-! ### The entry into the wait (R212) -/

theorem frame_wait (s : State) (w : Wait) : Frame [.wait] s { s with wait := w } := by
  intro part hpart
  cases part with
  | wait => simp at hpart
  | regs | mem => exact fun _ => rfl
  | _ => exact rfl

/-- Settles O34: the wait is the one piece written (D21). -/
theorem keyWaitEntry : Obligations.KeyWaitEntry := fun _ s => ⟨_, rfl, rfl, frame_wait s _⟩

/-! ### The waiting step (R213) -/

theorem freshKeys_getLsbD {keys seen : Word} {k : Nat} (hk : k < 16) :
    (freshKeys keys seen).getLsbD k = (keys.getLsbD k && !seen.getLsbD k) := by
  simp [freshKeys, hk]

/-- A key held now that was held in the recorded mask is not newly pressed. -/
theorem freshKeys_getLsbD_eq_false {keys seen : Word} {k : Nat} (hk : k < 16)
    (h : keys.getLsbD k = true → seen.getLsbD k = true) : (freshKeys keys seen).getLsbD k = false := by
  rw [freshKeys_getLsbD hk]
  cases hkey : keys.getLsbD k with
  | false => rfl
  | true => rw [h hkey]; rfl

theorem waitStep_of_no_fresh_key {s : State} (x : Reg) {seen : Word}
    (h : ∀ k, k < 16 → s.keys.getLsbD k = true → seen.getLsbD k = true) :
    s.waitStep x seen = { s with wait := .waiting x s.keys } := by
  have hnone : leastKey (freshKeys s.keys seen) = none :=
    leastKey_eq_none _ fun k hk => freshKeys_getLsbD_eq_false hk (h k hk)
  rw [State.waitStep, hnone]

theorem waitStep_of_least_fresh_key {s : State} (x : Reg) {seen : Word} {k : Nat} (hk : k < 16)
    (hkey : s.keys.getLsbD k = true) (hseen : seen.getLsbD k = false)
    (hmin : ∀ m, m < k → s.keys.getLsbD m = true → seen.getLsbD m = true) :
    s.waitStep x seen = { s.setReg x (BitVec.ofNat 8 k) with wait := .none } := by
  have hfresh : (freshKeys s.keys seen).getLsbD k = true := by rw [freshKeys_getLsbD hk, hkey, hseen]; rfl
  have hleast : leastKey (freshKeys s.keys seen) = some k :=
    leastKey_eq_some _ k hk hfresh fun m hm => freshKeys_getLsbD_eq_false (hm.trans hk) (hmin m hm)
  rw [State.waitStep, hleast]

theorem endStep_reg (s : State) (r : Reg) : s.endStep.reg r = s.reg r := by
  rcases endStep_cases s with ⟨-, e⟩ | ⟨-, -, -, -, e⟩ | ⟨-, -, -, -, e⟩ | ⟨-, -, e⟩
  · rw [e]
  · rw [e, reg_raise]
  · rw [e]; rfl
  · rw [e, reg_refresh]

/-- The state at the end of the wait (R213): the key `k` in `V[x]`, no longer waiting, before the end of the step. -/
def keyTaken (s : State) (x : Reg) (k : Nat) : State :=
  { s.takeArgs.tick.setReg x (BitVec.ofNat 8 k) with wait := .none }

theorem frame_keyTaken (s : State) (x : Reg) (k : Nat) :
    Frame [.regs, .wait, .dt, .st, .tone, .args, .inputs, .steps] s (keyTaken s x k) :=
  have hwrites : Frame [.regs, .wait] s.takeArgs.tick (keyTaken s x k) :=
    frame_trans (frame_regs s.takeArgs.tick _) (frame_wait _ .none) (by simp) (by simp)
  frame_trans (frame_tick s) hwrites (by simp) (by simp)

theorem reg_keyTaken (s : State) (x r : Reg) (k : Nat) :
    (keyTaken s x k).reg r = if r = x then BitVec.ofNat 8 k else s.reg r :=
  reg_setReg s.takeArgs.tick x r _

section
variable {s : State} {x : Reg} {seen : Word} (hrun : s.status = .running) (hwait : s.wait = .waiting x seen)
include hrun hwait

/-- A step with no newly pressed key waits on, and its end replaces the latch. -/
theorem step_of_no_fresh_key (h : ∀ k, k < 16 → s.keys.getLsbD k = true → seen.getLsbD k = true) :
    step s = .next (State.refresh { s.takeArgs.tick with wait := .waiting x s.keys }) := by
  rw [step_of_waiting hrun hwait, waitStep_of_no_fresh_key (s := s.takeArgs.tick) x h]
  exact congrArg _ (endStep_of_waiting hrun nofun)

theorem step_of_least_fresh_key {k : Nat} (hk : k < 16) (hkey : s.keys.getLsbD k = true) (hseen : seen.getLsbD k = false)
    (hmin : ∀ m, m < k → s.keys.getLsbD m = true → seen.getLsbD m = true) :
    step s = .next (keyTaken s x k).endStep := by
  rw [step_of_waiting hrun hwait, waitStep_of_least_fresh_key (s := s.takeArgs.tick) x hk hkey hseen hmin, keyTaken]

end

/-- Settles O35: with no newly pressed key the end of the step replaces the latch alone; with one, it finds the machine no longer
waiting, and so advances or raises OutOfBounds (`endOfStep`; D21, D23, D26). -/
theorem waitingStep : Obligations.WaitingStep := by
  intro s x seen hrun hj hwait
  refine ⟨fun hheld => ?waitsOn, fun k hk hkey hseen hmin => ?ends⟩
  case waitsOn =>
    have hwaits : Frame [.wait, .dt, .st, .tone, .args, .inputs, .steps] s { s.takeArgs.tick with wait := .waiting x s.keys } :=
      frame_trans (frame_tick s) (frame_wait _ _) (by simp) (by simp)
    exact ⟨_, step_of_no_fresh_key hrun hwait hheld, rfl, rfl,
      frame_trans hwaits (frame_drop_kept (frame_refresh _) hj.symm) (by simp) (by simp)⟩
  case ends =>
    obtain ⟨-, hinside, hbeyond, -⟩ := endOfStep (keyTaken s x k)
    refine ⟨_, step_of_least_fresh_key hrun hwait hk hkey hseen hmin, endStep_wait _, ?key, fun r hr => ?others,
      fun hpc => ?advance, fun hpc => ?beyond⟩
    case key =>
      rw [endStep_reg, reg_keyTaken, if_pos rfl, BitVec.toNat_ofNat]
      omega
    case others => rw [endStep_reg, reg_keyTaken, if_neg (List.ne_of_not_mem_cons hr)]
    case advance =>
      obtain ⟨hadvance, hlatch, hframe⟩ := hinside hrun hj rfl hpc
      exact ⟨hadvance, hlatch, frame_trans (frame_keyTaken s x k) hframe (by simp) (by simp)⟩
    case beyond =>
      obtain ⟨herror, hframe⟩ := hbeyond hrun hj rfl hpc
      exact ⟨herror, frame_trans (frame_keyTaken s x k) hframe (by simp) (by simp)⟩

end Sys2Proof.Proofs
end

section
/-! PROOF. Exceptions and the timer tick (spec/60_exceptions.md R320, R321): what every running step does to the tone bit, the
input latch and the timers. Every running step ends with phases 5 to 7, after one waiting step, one stop or one instruction. -/

namespace Sys2Proof.Proofs

open Sys2Proof Sys2Proof.Machine Sys2Proof.Safety

/-! ### The timer tick (R320, R321) -/

/-- Settles O37: the tick that stands when a step stops (`tick_then_stop`) is the whole of what comes before phase 2. -/
theorem tickBeforeInstr : Obligations.TickBeforeInstr := by
  intro s
  obtain ⟨hdt, hst, htone, -⟩ := tick_then_stop s s.status (t := s.takeArgs.tick) rfl
  exact ⟨hdt, hst, htone, rfl, frame_tick s⟩

/-! ### What the phases after the tick leave unchanged -/

theorem frame_mono {s t : State} {c d : List Part} (h : Frame c s t) (hcd : c ⊆ d) : Frame d s t :=
  fun part hpart => h part fun hmem => hpart (hcd hmem)

/-- R213: a waiting step writes the key's register and the wait. -/
theorem frame_waitStep (s : State) (x : Reg) (seen : Word) : Frame [.regs, .wait] s (s.waitStep x seen) := by
  rcases waitStep_cases s x seen with ⟨-, e⟩ | ⟨k, -, e⟩ <;> rw [e]
  · exact frame_mono (frame_wait s _) (by simp)
  · exact frame_trans (frame_regs s _) (frame_wait _ .none) (by simp) (by simp)

/-- R104: phases 5 to 7 write the program counter, the jump flag and the latch, or raise OutOfBounds. -/
theorem frame_endStep (s : State) : Frame [.pc, .keys, .jumped, .status] s s.endStep := by
  rcases endStep_cases s with ⟨-, e⟩ | ⟨-, -, -, -, e⟩ | ⟨-, hj, -, -, e⟩ | ⟨-, -, e⟩ <;> rw [e]
  · exact frame_mono (frame_refl s) (by simp)
  · exact frame_mono (frame_status s _) (by simp)
  · exact frame_mono (frame_advance hj _) (by simp)
  · exact frame_mono (frame_refresh s) (by simp)

/-- R28, D27: phase 7 replaces the latch of a machine that still runs, and a stop comes before it. -/
theorem endStep_keys (s : State) :
    (s.endStep.status = .running → s.endStep.keys = s.args.keysNext) ∧
      (s.endStep.status ≠ .running → s.endStep.keys = s.keys) := by
  rcases endStep_cases s with ⟨hstop, e⟩ | ⟨-, -, -, -, e⟩ | ⟨hrun, -, -, -, e⟩ | ⟨hrun, -, e⟩ <;> rw [e]
  · exact ⟨fun hrun => absurd hrun hstop, fun _ => rfl⟩
  · exact ⟨nofun, fun _ => rfl⟩
  · exact ⟨fun _ => rfl, fun hstop => absurd hrun hstop⟩
  · exact ⟨fun _ => rfl, fun hstop => absurd hrun hstop⟩

/-! ### Every running step -/

/-- All that a running step can do: after the tick, a waiting step or a stop writes at most a register, the wait and the status, or
the fetched instruction has one of its effects; phases 5 to 7 follow, and do nothing to a machine that has stopped. -/
theorem running_step_cases {s t : State} (hrun : s.status = .running) (h : step s = .next t) :
    ∃ u : State, t = u.endStep ∧
      (Frame [.regs, .wait, .status] s.takeArgs.tick u ∨
        ∃ w i, s.wait = .none ∧ s.fetch hardware = .ok w ∧ decode w = .ok i ∧ Effect s.takeArgs.tick i u) := by
  have hstopped : ∀ k, s.takeArgs.tick.raise k = (s.takeArgs.tick.raise k).endStep := fun k =>
    (endStep_of_stopped (s := s.takeArgs.tick.raise k) nofun).symm
  rcases step_cases h with ⟨hstop, -⟩ | ⟨-, x, seen, -, rfl⟩ | ⟨-, -, k, -, rfl⟩ | ⟨-, -, w, r, -, -, rfl⟩ |
    ⟨-, hwait, w, i, u, hf, hd, hu, rfl⟩
  · exact absurd hrun hstop
  · exact ⟨_, rfl, .inl (frame_mono (frame_waitStep _ x seen) (by simp))⟩
  · exact ⟨_, hstopped k, .inl (frame_mono (frame_status _ _) (by simp))⟩
  · exact ⟨_, hstopped _, .inl (frame_mono (frame_status _ _) (by simp))⟩
  · exact ⟨u, rfl, .inr ⟨w, i, hwait, hf, hd, exec_effect hu⟩⟩

/-- R321, R28: before phase 5 the tone bit, the latch and the step's arguments are as the tick left them. -/
theorem running_step_keeps_tick {s t : State} (hrun : s.status = .running) (h : step s = .next t) :
    ∃ u : State, t = u.endStep ∧ u.tone = s.takeArgs.tick.tone ∧ u.keys = s.keys ∧ u.args = s.nextArgs := by
  obtain ⟨u, ht, hidle | ⟨w, i, -, -, -, heffect⟩⟩ := running_step_cases hrun h
  · exact ⟨u, ht, hidle .tone (by simp), hidle .keys (by simp), hidle .args (by simp)⟩
  · have hframe := heffect.frame
    exact ⟨u, ht, hframe .tone (by simp), hframe .keys (by simp), hframe .args (by simp)⟩

/-- Settles O43: no phase after the tick writes the tone bit, and of those the last alone writes the latch. -/
theorem toneAndLatchOfEveryStep : Obligations.ToneAndLatchOfEveryStep := by
  intro s t hrun h
  obtain ⟨u, rfl, htone, hkeys, hargs⟩ := running_step_keeps_tick hrun h
  obtain ⟨-, -, htick, -⟩ := tickBeforeInstr s
  have hend : u.endStep.tone = u.tone := frame_endStep u .tone (by simp)
  obtain ⟨hreplaced, hkept⟩ := endStep_keys u
  rw [hargs] at hreplaced
  rw [hkeys] at hkept
  exact ⟨hend.trans (htone.trans htick), hreplaced, hkept⟩

/-- R201: the one instruction that writes DT writes a register's value. -/
theorem Effect.dt_kept_or_reg {i : Instr} {s t : State} (h : Effect s i t) :
    t.dt = s.dt ∨ ∃ x, i = .ldDTVx x ∧ t.dt = s.reg x := by
  cases h with
  | setDT x => exact .inr ⟨x, rfl, rfl⟩
  | _ => exact .inl rfl

/-- R202: the one instruction that writes ST writes a register's value. -/
theorem Effect.st_kept_or_reg {i : Instr} {s t : State} (h : Effect s i t) :
    t.st = s.st ∨ ∃ x, i = .ldSTVx x ∧ t.st = s.reg x := by
  cases h with
  | setST x => exact .inr ⟨x, rfl, rfl⟩
  | _ => exact .inl rfl

/-- Settles O44: after the tick only the fetched instruction can write a timer, and the tick leaves the registers it reads. -/
theorem timersOfEveryStep : Obligations.TimersOfEveryStep := by
  intro s t hrun h
  obtain ⟨hdt, hst, -⟩ := tickBeforeInstr s
  obtain ⟨u, rfl, hcases⟩ := running_step_cases hrun h
  have hdtEnd : u.endStep.dt = u.dt := frame_endStep u .dt (by simp)
  have hstEnd : u.endStep.st = u.st := frame_endStep u .st (by simp)
  rw [hdtEnd, hstEnd]
  rcases hcases with hidle | ⟨w, i, hwait, hf, hd, heffect⟩
  · have hdtKept : u.dt = s.takeArgs.tick.dt := hidle .dt (by simp)
    have hstKept : u.st = s.takeArgs.tick.st := hidle .st (by simp)
    exact ⟨.inl (hdtKept ▸ hdt), .inl (hstKept ▸ hst)⟩
  · constructor
    · rcases heffect.dt_kept_or_reg with e | ⟨x, rfl, e⟩
      · exact .inl (e ▸ hdt)
      · exact .inr ⟨w, x, hwait, hf, hd, e⟩
    · rcases heffect.st_kept_or_reg with e | ⟨x, rfl, e⟩
      · exact .inl (e ▸ hst)
      · exact .inr ⟨w, x, hwait, hf, hd, e⟩

end Sys2Proof.Proofs
end

section
/-! PROOF. Reset, the load and the placing of a word (spec/70_reset_and_hazards.md R400, R401, R403). -/

namespace Sys2Proof.Proofs

open Sys2Proof Sys2Proof.Machine Sys2Proof.Safety

/-! ### Reset (R400) -/

theorem reg_reset (r : Reg) : State.reset.reg r = 0 := Vector.getElem_replicate _

theorem entry_reset (k : Nat) : State.reset.entry k = 0 := entry_resetWith hardware k

theorem stackFits_reset : StackFits hardware State.reset := ⟨List.length_replicate, Nat.zero_le _⟩

theorem fbByte_reset (r : Fin 32) (j : Fin 8) : State.reset.fbByte r j = 0 := by
  simp [State.fbByte, State.reset, State.resetWith]

/-- R45, D2: the glyphs are the 80 bytes from address 0. -/
theorem byte_reset_above_glyphs {a : Nat} (h : 80 ≤ a) : State.reset.byte hardware a = 0 := by
  have hlen : glyphTable.length = 80 := rfl
  rw [byte_reset, List.getD_eq_default _ _ (hlen ▸ h)]

/-- Settles O50: the registers, the framebuffer, the stack and memory by the lemmas above, every other element by its value. -/
theorem resetLeaves : Obligations.ResetLeaves :=
  ⟨reg_reset, rfl, rfl, rfl, rfl, rfl, stackFits_reset, entry_reset, fbByte_reset, rfl, rfl, rfl, rfl,
    fun _ _ h => byte_reset_above_glyphs h⟩

/-- Settles O59: memory lists nothing, every stack entry is 0, and a machine that runs and does not wait has recorded nothing. -/
theorem resetMeetsInvariants : Obligations.ResetMeetsInvariants := by
  have hsafe : Safe State.reset := safe_of_running rfl
  have hrange : PcAndStackInRange State.reset :=
    ⟨by decide, stackFits_reset, fun k => by rw [entry_reset]; decide⟩
  exact ⟨rfl, hrange, rfl, stopRecordsPc_of_safe hsafe, waitsOnKeyWord_of_wait_none rfl, hsafe⟩

/-! ### The load operation (R401) -/

section
variable {s : State} {bytes : List Byte}

/-- D30: the model refuses a load after the first step. -/
theorem load_of_started (h : s.steps ≠ 0) : s.load bytes = .refused .loadAfterStart := if_pos h

theorem load_of_too_long (h0 : s.steps = 0) (h : bytes.length > 3584) : s.load bytes = .fault .loadTooLarge :=
  (if_neg (not_not.mpr h0)).trans (if_pos h)

theorem load_of_fits (h0 : s.steps = 0) (h : bytes.length ≤ 3584) :
    s.load bytes = .next (s.placeBytes hardware 0x200 bytes) :=
  (if_neg (not_not.mpr h0)).trans (if_neg (not_lt.mpr h))

end

/-- Settles O52: the load puts the image at 0x200 by `State.placeBytes`, and 0x200 + 3584 is the end of memory. -/
theorem loadPlacesImage : Obligations.LoadPlacesImage := by
  intro bytes s
  refine ⟨fun h0 hfits => ?_, load_of_too_long, load_of_started⟩
  refine ⟨_, load_of_fits h0 hfits, fun k hk => ?_, bytesExcept_placeBytes s _ _, frame_placeBytes hardware s _ _⟩
  rw [byte_placeBytes_inside s (by omega) hk, List.getD_eq_getElem _ _ hk]

/-! ### A word placed at the program counter (R403, log 9) -/

theorem placeWord_pc (s : State) (w : Word) : (s.placeWord w).pc = s.pc := by
  rw [State.placeWord, placeBytes_eq]

/-- Settles O53: the word's two bytes are read back from where they were put, and they join to the word (`wordOfBytes_bytes`). -/
theorem placedWordIsFetched : Obligations.PlacedWordIsFetched := by
  intro s w heven hinside
  have hroom : s.pc.toNat + [highByte w, lowByte w].length ≤ 0x1000 := Nat.succ_le_succ hinside
  have hhigh : (s.placeWord w).byte hardware s.pc.toNat = highByte w := byte_placeBytes_inside (k := 0) s hroom (by simp)
  have hlow : (s.placeWord w).byte hardware (s.pc.toNat + 1) = lowByte w := byte_placeBytes_inside (k := 1) s hroom (by simp)
  rw [fetch_of_even_inside (by rwa [placeWord_pc]) (by rwa [placeWord_pc]), placeWord_pc, hhigh, hlow, wordOfBytes_bytes]

end Sys2Proof.Proofs
end
